-- ==== Sys2Proof/Word.lean ====
section
/-! DEFINITION. The data types of the block: bytes, 32-bit words, packets and byte sequences of a fixed length
(spec/00_scope.md R5, R6). -/

namespace Sys2Proof

/-- "A byte is 8 bits" (R6). -/
abbrev Byte := BitVec 8

/-- An unsigned value of width 32 (R5): `engine_boots`, `engine_time`, `local`, `len`. -/
abbrev Word := BitVec 32

/-- A command or response packet: a byte sequence, first byte first (spec/30_encoding.md R35). -/
abbrev Packet := List Byte

/-- A byte sequence of length exactly `n` (R6). A sequence of another length is not a value of this type, as
spec/43_key_split.md R66 asks for `lkey` and spec/20_memory.md R26 for the salt, the pre-IV, the cipher key and the IV. -/
abbrev Bytes (n : Nat) := { l : List Byte // l.length = n }

end Sys2Proof
end

