-- ==== Sys2Proof/Config.lean ====
section
/-! DEFINITION. The parameters of the block (spec/00_scope.md R4). The constants are plain numbers; the two parameters
that a model takes as arguments, `MAX_LEN` and `FIELD_MASK`, are the structure `Config`, and the seed is the type `Seed`. -/

namespace Sys2Proof

/-- `BLOCK_SIZE`: the cipher block size in bytes (R4). -/
abbrev blockSize : Nat := 8

/-- `LKEY_LEN`: the length of the localized key (R4). -/
abbrev lkeyLen : Nat := 16

/-- `KEY_LEN`: the length of the cipher key, `lkey` bytes 0 to 7 (R4). -/
abbrev keyLen : Nat := 8

/-- `PREIV_LEN`: the length of the pre-IV, `lkey` bytes 8 to 15 (R4). -/
abbrev preIvLen : Nat := 8

/-- `SALT_LEN`: the length of the salt and of the IV (R4). -/
abbrev saltLen : Nat := 8

/-- `CTR_WRAP`: the value the counter never takes; the counter counts modulo it (R4). -/
abbrev ctrWrap : Nat := 0xFFFFFFFF

/-- `SEED_MIN` (R4). -/
abbrev seedMin : Nat := 1

/-- `SEED_MAX` (R4). -/
abbrev seedMax : Nat := 0xFFFFFFFE

/-- `DRAWS_PER_ENCRYPT`: how many times `ENCPREP` advances `SALT` (R4). -/
abbrev drawsPerEncrypt : Nat := 2

/-- The greatest legal value of `MAX_LEN`: "must satisfy `MAX_LEN <= 0xFFFFFF00`" (R4). -/
abbrev maxLenBound : Nat := 0xFFFFFF00

/-- `PRIV_PROTO_ID`: an identifier constant; no rule of the block reads it (R4). -/
abbrev privProtoId : Nat := 2

/-- `ALG_NAME`: an identifier constant; no rule of the block reads it (R4). -/
abbrev algName : String := "des"

/-- The values the `SALT` register can hold: 0 to 0xFFFFFFFE, so that "the excluded value cannot be written down"
(spec/10_state.md R11). -/
abbrev Counter := Fin ctrWrap

/-- A legal seed: `1 <= seed <= 0xFFFFFFFE` (spec/70_reset_and_hazards.md R106). An illegal seed is not a value of this
type: it has no meaning and is mapped to nothing. -/
abbrev Seed := { n : Nat // seedMin ≤ n ∧ n ≤ seedMax }

/-- The two legal values of `FIELD_MASK` (spec/44_salt_framing_and_iv.md R69). -/
inductive FieldMask where
  /-- 0x000000FF: the value of this hardware. -/
  | lowByte
  /-- 0xFFFFFFFF: full 32-bit fields, "the only other legal value". -/
  | full
  deriving DecidableEq, Repr

/-- The parameters a model takes as arguments (R4, spec/92_eei_decisions.md D2 and D7). No command changes them. -/
structure Config where
  /-- `MAX_LEN`, OPEN: the greatest payload length in bytes a command may carry. -/
  maxLen : Fin (maxLenBound + 1)
  /-- `FIELD_MASK`. -/
  fieldMask : FieldMask
  deriving DecidableEq, Repr

end Sys2Proof
end

