-- ==== Sys2Proof/Syntax.lean ====
section
/-! DEFINITION. The seven commands of SIVP-CMD version 1 (spec/30_encoding.md R37), with the operands of R38. -/

namespace Sys2Proof

/-- One command; one constructor per row of spec/opcode_table.json. The `len` operand of `PAD` and `ENCPREP` is the
length of `data`: R45(b) makes any other value of the field an illegal packet. -/
inductive Instr where
  /-- `PAD bs, data` (spec/41_padding.md R50). -/
  | pad (bs : Byte) (data : List Byte)
  /-- `NEXT` (spec/42_salt_sequence.md R55). -/
  | next
  /-- `KSPLIT lkey` (spec/43_key_split.md R63). -/
  | ksplit (lkey : Bytes 16)
  /-- `FRAME engine_boots, local` (spec/44_salt_framing_and_iv.md R67). -/
  | frame (engineBoots localVal : Word)
  /-- `IVXOR salt, pre_iv` (spec/44_salt_framing_and_iv.md R71). -/
  | ivxor (salt preIv : Bytes 8)
  /-- `ENCPREP lkey, engine_boots, engine_time, data` (spec/45_privacy_engine.md R75). -/
  | encprep (lkey : Bytes 16) (engineBoots engineTime : Word) (data : List Byte)
  /-- `DECPREP lkey, engine_boots, engine_time, salt, len` (spec/45_privacy_engine.md R80). -/
  | decprep (lkey : Bytes 16) (engineBoots engineTime : Word) (salt : Bytes 8) (len : Word)
  deriving DecidableEq, Repr

/-- The pseudo-instruction `PAD8 data`, which expands to `PAD 8, data` (R48, R42). -/
abbrev Instr.pad8 (data : List Byte) : Instr := .pad 8 data

/-- The pseudo-instruction `DISCARD`, which expands to `NEXT`; the host ignores the response (R48). -/
abbrev Instr.discard : Instr := .next

end Sys2Proof
end

