-- ==== Sys2Proof/WellFormed.lean ====
section
/-! DEFINITION. Which commands have legal operands: the operand conditions (c) and (d) of spec/30_encoding.md R45 and
the operand ranges of spec/41_padding.md R50, spec/45_privacy_engine.md R75 and R80. The lengths of `lkey`, `salt` and
`pre_iv` are in their types. -/

namespace Sys2Proof

/-- The operands of `i` are legal under the parameters `cfg`: `bs` is 1 to 255, and no `len` is above `MAX_LEN`. -/
def Instr.wellFormed (cfg : Config) : Instr → Bool
  | .pad bs data => bs != 0 && decide (data.length ≤ cfg.maxLen.val)
  | .next => true
  | .ksplit _ => true
  | .frame _ _ => true
  | .ivxor _ _ => true
  | .encprep _ _ _ data => decide (data.length ≤ cfg.maxLen.val)
  | .decprep _ _ _ _ len => decide (len.toNat ≤ cfg.maxLen.val)

end Sys2Proof
end

