-- ==== Sys2Proof/Decode.lean ====
section
/-! DEFINITION. From packet bytes to commands and back (spec/30_encoding.md): byte-order helpers, the decoder of R43
with the operand checks of R45, the encoder, and the packet that a row of spec/opcode_table.json stands for. -/

namespace Sys2Proof

/-- `be32(v)`: the 4-byte sequence of `v`, most significant byte first (spec/00_scope.md R6, spec/20_memory.md R20). -/
def be32 (v : Word) : List Byte :=
  [v.extractLsb' 24 8, v.extractLsb' 16 8, v.extractLsb' 8 8, v.extractLsb' 0 8]

/-- The 32-bit value of four bytes, most significant first (R41: unsigned big-endian, used at full width). -/
def ofBe32 (b3 b2 b1 b0 : Byte) : Word :=
  b3 ++ b2 ++ b1 ++ b0

/-- Why a packet is an illegal command (R44, R45). All six get the same response: the conditions "are not
distinguished" (spec/60_exceptions.md R96). -/
inductive Illegal where
  /-- R44: "The empty packet (`plen` = 0) is also an illegal command." -/
  | emptyPacket
  /-- R44: opcodes 0x00 and 0x08 to 0xFF. -/
  | reservedOpcode (op : Byte)
  /-- R45(a): shorter than the fixed part of the format. -/
  | truncated
  /-- R45(b): `plen` is not the length that the format and its `len` field require. -/
  | lengthMismatch
  /-- R45(c): `len > MAX_LEN`. -/
  | payloadTooLong
  /-- R45(d): `PAD` with `bs = 0`. -/
  | zeroBlockSize
  deriving DecidableEq, Repr

/-- The next `n` bytes of a packet and what follows them; nothing where fewer are left. -/
def cut (n : Nat) (l : List Byte) : Option (Bytes n × List Byte) :=
  if h : n ≤ l.length then some (⟨l.take n, by simp [h]⟩, l.drop n) else none

/-- The next 4 bytes of a packet as a big-endian integer, and what follows them (R36, R41). -/
def cutWord : List Byte → Option (Word × List Byte)
  | b3 :: b2 :: b1 :: b0 :: rest => some (ofBe32 b3 b2 b1 b0, rest)
  | _ => none

/-- The end of a format without payload: no byte may follow (R45(b)). -/
def finish (i : Instr) : List Byte → Except Illegal Instr
  | [] => .ok i
  | _ :: _ => .error .lengthMismatch

/-- The end of a format with payload: exactly `len` bytes follow (R45(b)). -/
def finishData (len : Word) (data : List Byte) (i : Instr) : Except Illegal Instr :=
  if data.length = len.toNat then .ok i else .error .lengthMismatch

/-- Format P after the opcode: `bs`, `len`, `data` (R38). -/
def decodePad : List Byte → Except Illegal Instr
  | [] => .error .truncated
  | bs :: r0 =>
    match cutWord r0 with
    | none => .error .truncated
    | some (len, data) => finishData len data (.pad bs data)

/-- Format K after the opcode: `lkey` (R38). -/
def decodeKsplit (r0 : List Byte) : Except Illegal Instr :=
  match cut 16 r0 with
  | none => .error .truncated
  | some (lkey, r1) => finish (.ksplit lkey) r1

/-- Format F after the opcode: `engine_boots`, `local` (R38). -/
def decodeFrame (r0 : List Byte) : Except Illegal Instr :=
  match cutWord r0 with
  | none => .error .truncated
  | some (boots, r1) =>
    match cutWord r1 with
    | none => .error .truncated
    | some (loc, r2) => finish (.frame boots loc) r2

/-- Format X after the opcode: `salt`, `pre_iv` (R38). -/
def decodeIvxor (r0 : List Byte) : Except Illegal Instr :=
  match cut 8 r0 with
  | none => .error .truncated
  | some (salt, r1) =>
    match cut 8 r1 with
    | none => .error .truncated
    | some (preIv, r2) => finish (.ivxor salt preIv) r2

/-- Format E after the opcode: `lkey`, `engine_boots`, `engine_time`, `len`, `data` (R38). -/
def decodeEncprep (r0 : List Byte) : Except Illegal Instr :=
  match cut 16 r0 with
  | none => .error .truncated
  | some (lkey, r1) =>
    match cutWord r1 with
    | none => .error .truncated
    | some (boots, r2) =>
      match cutWord r2 with
      | none => .error .truncated
      | some (time, r3) =>
        match cutWord r3 with
        | none => .error .truncated
        | some (len, data) => finishData len data (.encprep lkey boots time data)

/-- Format D after the opcode: `lkey`, `engine_boots`, `engine_time`, `salt`, `len` (R38). -/
def decodeDecprep (r0 : List Byte) : Except Illegal Instr :=
  match cut 16 r0 with
  | none => .error .truncated
  | some (lkey, r1) =>
    match cutWord r1 with
    | none => .error .truncated
    | some (boots, r2) =>
      match cutWord r2 with
      | none => .error .truncated
      | some (time, r3) =>
        match cut 8 r3 with
        | none => .error .truncated
        | some (salt, r4) =>
          match cutWord r4 with
          | none => .error .truncated
          | some (len, r5) => finish (.decprep lkey boots time salt len) r5

/-- The decoder "written from the table alone" (R43): read byte 0, find the row whose `match` equals it (the whole byte
is compared), check the packet length against the row's length formula, cut the fields. The two checks that need the
operand values, R45(c) and (d), are `illegalOperand`. -/
def decode : Packet → Except Illegal Instr
  | [] => .error .emptyPacket
  | op :: body =>
    match op.toNat with
    | 0x01 => decodePad body
    | 0x02 => finish .next body
    | 0x03 => decodeKsplit body
    | 0x04 => decodeFrame body
    | 0x05 => decodeIvxor body
    | 0x06 => decodeEncprep body
    | 0x07 => decodeDecprep body
    | _ => .error (.reservedOpcode op)

/-- R45(c): a `len` field above `MAX_LEN`. -/
def tooLong (cfg : Config) (len : Nat) : Option Illegal :=
  if cfg.maxLen.val < len then some .payloadTooLong else none

/-- The checks of R45(c) and (d) on the operands of a command; nothing where they are legal. -/
def illegalOperand (cfg : Config) : Instr → Option Illegal
  | .pad bs data => if bs = 0 then some .zeroBlockSize else tooLong cfg data.length
  | .next => none
  | .ksplit _ => none
  | .frame _ _ => none
  | .ivxor _ _ => none
  | .encprep _ _ _ data => tooLong cfg data.length
  | .decprep _ _ _ _ len => tooLong cfg len.toNat

/-- The whole of R44 and R45: "every byte sequence is either one of the seven commands with well-formed operands or an
illegal command". -/
def decodeCommand (cfg : Config) (p : Packet) : Except Illegal Instr :=
  match decode p with
  | .error e => .error e
  | .ok i =>
    match illegalOperand cfg i with
    | some e => .error e
    | none => .ok i

/-- The opcode of a command (R37). -/
def Instr.opcode : Instr → Byte
  | .pad _ _ => 0x01
  | .next => 0x02
  | .ksplit _ => 0x03
  | .frame _ _ => 0x04
  | .ivxor _ _ => 0x05
  | .encprep _ _ _ _ => 0x06
  | .decprep _ _ _ _ _ => 0x07

/-- The packet bytes after the opcode (R38). -/
def Instr.operandBytes : Instr → List Byte
  | .pad bs data => bs :: be32 (BitVec.ofNat 32 data.length) ++ data
  | .next => []
  | .ksplit lkey => lkey.1
  | .frame boots loc => be32 boots ++ be32 loc
  | .ivxor salt preIv => salt.1 ++ preIv.1
  | .encprep lkey boots time data =>
    lkey.1 ++ be32 boots ++ be32 time ++ be32 (BitVec.ofNat 32 data.length) ++ data
  | .decprep lkey boots time salt len => lkey.1 ++ be32 boots ++ be32 time ++ salt.1 ++ be32 len

/-- The packet of a command (R36, R38). It is the command's packet when its operands are well-formed. -/
def encode (i : Instr) : Packet :=
  i.opcode :: i.operandBytes

/-- The packet length `plen` of a command (R38). -/
def Instr.packetLength : Instr → Nat
  | .pad _ data => 6 + data.length
  | .next => 1
  | .ksplit _ => 17
  | .frame _ _ => 9
  | .ivxor _ _ => 17
  | .encprep _ _ _ data => 29 + data.length
  | .decprep _ _ _ _ _ => 37

/-- The low `n` bytes of a number, least significant first (the numbering of spec/opcode_table.json's words). -/
def wordBytes (n w : Nat) : List Byte :=
  (List.range n).map fun k => BitVec.ofNat 8 (w >>> (8 * k))

/-- The big-endian integer in the four bytes at `off`; bytes that are not there count as zero. -/
def lenAt (l : List Byte) (off : Nat) : Nat :=
  (ofBe32 (l.getD off 0) (l.getD (off + 1) 0) (l.getD (off + 2) 0) (l.getD (off + 3) 0)).toNat

/-- The packet length that the opcode, and in formats P and E the `len` field, require (R46); 0 for a reserved opcode. -/
def formatLength (header : List Byte) : Nat :=
  match (header.getD 0 0).toNat with
  | 0x01 => 6 + lenAt header 2
  | 0x02 => 1
  | 0x03 => 17
  | 0x04 => 9
  | 0x05 => 17
  | 0x06 => 29 + lenAt header 25
  | 0x07 => 37
  | _ => 0

/-- The packet whose bits are `w`, of `nbits` bits given and every further bit 0, as long as its format makes it. -/
def packetOfWord (nbits w : Nat) : Packet :=
  let v := w % 2 ^ nbits
  wordBytes (max ((nbits + 7) / 8) (if nbits = 0 then 0 else formatLength (wordBytes 29 v))) v

/-- The command the decoder reads from the instruction whose bits are `w`. -/
def decodeTableWord (nbits w : Nat) : Option Instr :=
  (decode (packetOfWord nbits w)).toOption

end Sys2Proof
end

