-- ==== Sys2Proof/Machine/State.lean ====
section
/-! DEFINITION. The state of the block and its reset (spec/10_state.md, spec/70_reset_and_hazards.md). -/

namespace Sys2Proof.Machine

/-- The state of one run. The block's own state is `salt` alone (spec/10_state.md R10); the other fields are the
parameters of the run and the two ends of its command port (log entries 1, 3, 5, 6). -/
structure State where
  /-- `SALT`, the salt counter: 0 to 0xFFFFFFFE (R10, R11). -/
  salt : Counter
  /-- The parameters `MAX_LEN` and `FIELD_MASK` (spec/00_scope.md R4); no step changes them. -/
  cfg : Config
  /-- The command packets the port has accepted and the block has not executed yet, first accepted first
  (spec/20_memory.md R31). -/
  port : List Packet
  /-- The response packets given since reset, oldest first: the observation of a run (spec/70_reset_and_hazards.md R123).
  No command reads it. -/
  responses : List Packet
  deriving DecidableEq, Repr

/-- Reasons a step can stop with a fault: there are none. "Every command completes with exactly one response" and "`step`
is a total function" (spec/60_exceptions.md R95); an error of the block is a response, not a stop. -/
inductive Fault where
  deriving DecidableEq, Repr

/-- Reasons a command has no meaning. -/
inductive Refusal where
  /-- Raised by an arm of `exec` whose command has no meaning yet; safe. No arm raises it: all seven commands are
  modelled. -/
  | notModelled (mnemonic : String)
  deriving DecidableEq, Repr

/-- The three outcomes of a step of this machine. -/
abbrev Outcome := Host.Outcome State Fault Refusal

/-- The block right after reset with the given parameters and a legal seed: "Reset loads the seed into `SALT` and does
nothing else" (spec/70_reset_and_hazards.md R105, R108). -/
def State.resetWith (cfg : Config) (seed : Seed) : State where
  salt := ⟨seed.1, Nat.lt_of_le_of_lt seed.2.2 (by decide)⟩
  cfg := cfg
  port := []
  responses := []

/-- The parameters of the plain reset state: the mask of this hardware (spec/44_salt_framing_and_iv.md R69) and the
greatest legal `MAX_LEN` (DESIGN CHOICE, log entry 5). -/
def State.resetConfig : Config where
  maxLen := ⟨0xFFFFFF00, by decide⟩
  fieldMask := .lowByte

/-- The one plain reset state. The seed 1 is a DESIGN CHOICE (log entry 4): R19 gives a range, and what is claimed of the
block is claimed for every seed, through `State.resetWith`. -/
def State.reset : State :=
  State.resetWith State.resetConfig ⟨1, by decide⟩

end Sys2Proof.Machine
end

