-- ==== Sys2Proof/Machine/Operands.lean ====
section
/-! DEFINITION. The pure functions of the block (spec/00_scope.md R8): no state is read or written. -/

namespace Sys2Proof.Machine

/-- `zeros(n)`: `n` bytes all equal to 0x00 (spec/00_scope.md R6). -/
def zeros (n : Nat) : List Byte :=
  List.replicate n 0

/-- `bytes(B, i, j)`: `B[i], ..., B[j-1]` (spec/00_scope.md R6). -/
def slice (b : List Byte) (i j : Nat) : List Byte :=
  (b.drop i).take (j - i)

/-- `pad(D, bs)` for `bs >= 1` (spec/41_padding.md R51). -/
def pad (d : List Byte) (bs : Nat) : List Byte :=
  let r := d.length % bs
  if r = 0 then d else d ++ zeros (bs - r)

/-- `succ(s)`: the exact integer `s + 1`, or 0 where that would be 0xFFFFFFFF (spec/42_salt_sequence.md R57). -/
def succ (s : Counter) : Counter :=
  if h : s.val + 1 = ctrWrap then ⟨0, by decide⟩ else ⟨s.val + 1, by have := s.isLt; omega⟩

/-- A drawn counter value as the 32-bit value of a response or of the salt framing. -/
def counterWord (c : Counter) : Word :=
  BitVec.ofNat 32 c.val

/-- `ksplit(K)`: bytes 0 to 7 are the cipher key, bytes 8 to 15 the pre-IV (spec/43_key_split.md R64). -/
def ksplit (k : Bytes 16) : Bytes 8 × Bytes 8 :=
  (⟨slice k.1 0 8, by simp [slice, k.2]⟩, ⟨slice k.1 8 16, by simp [slice, k.2]⟩)

/-- The value of `FIELD_MASK` (spec/44_salt_framing_and_iv.md R69). -/
def maskWord : FieldMask → Word
  | .lowByte => 0x000000FF
  | .full => 0xFFFFFFFF

/-- `frame(boots, local)` under a field mask (spec/44_salt_framing_and_iv.md R68, layout spec/20_memory.md R21). -/
def frame (m : FieldMask) (boots loc : Word) : Bytes 8 :=
  ⟨be32 (boots &&& maskWord m) ++ be32 (loc &&& maskWord m), rfl⟩

/-- `xor8(A, B)`: byte-wise exclusive OR (spec/00_scope.md R6, spec/44_salt_framing_and_iv.md R72). -/
def xor8 (a b : Bytes 8) : Bytes 8 :=
  ⟨List.zipWith (· ^^^ ·) a.1 b.1, by simp [a.2, b.2]⟩

end Sys2Proof.Machine
end

