-- ==== Sys2Proof/Machine/Flags.lean ====
section
/-! DEFINITION. The block has no flags (spec/10_state.md R16); what stands in their place is the status of each response
(spec/60_exceptions.md R90) and the order in which it is chosen (R96). -/

namespace Sys2Proof.Machine

/-- The two errors of the block (spec/60_exceptions.md R90 to R92). -/
inductive ErrorKind where
  /-- The ciphertext length is not a multiple of the block size; `DECPREP` only (R91). -/
  | formatError
  /-- The packet is not a well-formed command (R92). -/
  | illegalCmd
  deriving DecidableEq, Repr

/-- The status `OK`: 0x00 (R90). -/
def okCode : Byte := 0x00

/-- The status byte of an error: `FORMAT_ERROR` is 0x01, `ILLEGAL_CMD` is 0x02 (R90). -/
def ErrorKind.code : ErrorKind → Byte
  | .formatError => 0x01
  | .illegalCmd => 0x02

/-- The format check of `DECPREP`: `len mod 8 != 0` (spec/45_privacy_engine.md R80); no other command has one. -/
def formatViolated : Instr → Bool
  | .decprep _ _ _ _ len => len.toNat % blockSize != 0
  | _ => false

/-- The error a command ends with, nothing where its status is `OK` (R96): an illegal operand first, whatever else is
wrong; only then the format check. -/
def errorOf (cfg : Config) (i : Instr) : Option ErrorKind :=
  match illegalOperand cfg i with
  | some _ => some .illegalCmd
  | none => if formatViolated i then some .formatError else none

end Sys2Proof.Machine
end

