-- ==== Sys2Proof/Machine/Response.lean ====
section
/-! DEFINITION. The responses of the block and their packets (spec/30_encoding.md R39). -/

namespace Sys2Proof.Machine

/-- The one answer to a command: the result fields of R39, or an error (spec/60_exceptions.md R97). -/
inductive Response where
  /-- `PAD`: `outlen`, `out`. -/
  | padded (out : List Byte)
  /-- `NEXT`: `value`. -/
  | drawn (value : Word)
  /-- `KSPLIT`: `cipher_key`, `pre_iv`. -/
  | split (cipherKey preIv : Bytes 8)
  /-- `FRAME`: `salt`. -/
  | framed (salt : Bytes 8)
  /-- `IVXOR`: `iv`. -/
  | combined (iv : Bytes 8)
  /-- `ENCPREP`: `cipher_key`, `iv`, `salt`, `outlen`, `out`. -/
  | encPrepared (cipherKey iv salt : Bytes 8) (out : List Byte)
  /-- `DECPREP`: `cipher_key`, `iv`. -/
  | decPrepared (cipherKey iv : Bytes 8)
  /-- An error response: no result field follows the status. -/
  | failed (e : ErrorKind)
  deriving DecidableEq, Repr

/-- `outlen` and `out`: the length in 4 bytes, big-endian, then the bytes (R39, spec/20_memory.md R20). -/
def lengthPrefixed (out : List Byte) : List Byte :=
  be32 (BitVec.ofNat 32 out.length) ++ out

/-- The response packet: the status byte, then the result fields in order (R39, spec/60_exceptions.md R90). -/
def Response.encode : Response → Packet
  | .padded out => okCode :: lengthPrefixed out
  | .drawn value => okCode :: be32 value
  | .split ck pv => okCode :: (ck.1 ++ pv.1)
  | .framed salt => okCode :: salt.1
  | .combined iv => okCode :: iv.1
  | .encPrepared ck iv salt out => okCode :: (ck.1 ++ iv.1 ++ salt.1 ++ lengthPrefixed out)
  | .decPrepared ck iv => okCode :: (ck.1 ++ iv.1)
  | .failed e => [e.code]

end Sys2Proof.Machine
end

