-- ==== Sys2Proof/Machine/Ops.lean ====
section
/-! DEFINITION. The named operations over the state: the draw, giving a response, ending a command with an error, and
taking a packet from the port. They are the only ones that change a state. -/

namespace Sys2Proof.Machine

/-- `draw()`: returns the value `SALT` held and leaves its successor in `SALT`, in one indivisible step
(spec/42_salt_sequence.md R56, spec/20_memory.md R27). -/
def draw (s : State) : Counter × State :=
  (s.salt, { s with salt := succ s.salt })

/-- Give the response of the command in execution (spec/30_encoding.md R35: exactly one per command). -/
def respond (r : Response) (s : State) : State :=
  { s with responses := s.responses ++ [r.encode] }

/-- `raise E`: the command ends with the error response; nothing is saved, `SALT` stays as it was, and control goes
nowhere (spec/00_scope.md R7, spec/60_exceptions.md R97). There is no return from it: the block "is at once ready for the
next packet" (R98). -/
def raise (e : ErrorKind) (s : State) : State :=
  respond (.failed e) s

/-- A command with an error condition: the error that R96 chooses, or else its effect `body`. -/
def complete (i : Instr) (s : State) (body : State → State) : Outcome :=
  match errorOf s.cfg i with
  | some e => .next (raise e s)
  | none => .next (body s)

/-- The next packet of the port, taken from it; nothing where the host has presented none (spec/20_memory.md R31(b)). -/
def takePacket (s : State) : Option (Packet × State) :=
  match s.port with
  | [] => none
  | p :: rest => some (p, { s with port := rest })

/-- The port accepts further packets, in this order (spec/20_memory.md R31(c)). -/
def State.present (ps : List Packet) (s : State) : State :=
  { s with port := s.port ++ ps }

end Sys2Proof.Machine
end

