-- ==== Sys2Proof/Machine/KeySplit.lean ====
section
/-! DEFINITION. The split of the localized key: `KSPLIT` (spec/43_key_split.md). -/

namespace Sys2Proof.Machine

/-- `KSPLIT lkey` (R63): answers the two halves of the key; any 16 bytes are accepted. -/
def execKsplit (lkey : Bytes 16) (s : State) : Outcome :=
  .next (respond (.split (ksplit lkey).1 (ksplit lkey).2) s)

end Sys2Proof.Machine
end

