-- ==== Sys2Proof/Machine/Padding.lean ====
section
/-! DEFINITION. The padding generator: `PAD` (spec/41_padding.md). -/

namespace Sys2Proof.Machine

/-- `PAD bs, data` (R50): answers the padded payload; `SALT` is neither read nor written. -/
def execPad (bs : Byte) (data : List Byte) (s : State) : Outcome :=
  complete (.pad bs data) s fun t => respond (.padded (pad data bs.toNat)) t

end Sys2Proof.Machine
end

