-- ==== Sys2Proof/Machine/PrivacyEngine.lean ====
section
/-! DEFINITION. The encrypt and decrypt front ends: `ENCPREP` and `DECPREP` (spec/45_privacy_engine.md). -/

namespace Sys2Proof.Machine

/-- The effect of a legal `ENCPREP`, step by step (R75): split the key, draw `local`, frame the salt, draw a second value
and discard it, combine, pad. -/
def encprepEffect (lkey : Bytes 16) (boots : Word) (data : List Byte) (s : State) : State :=
  let keys := ksplit lkey
  let used := draw s
  let salt := frame s.cfg.fieldMask boots (counterWord used.1)
  let discarded := draw used.2
  let iv := xor8 salt keys.2
  let out := pad data blockSize
  respond (.encPrepared keys.1 iv salt out) discarded.2

/-- `ENCPREP lkey, engine_boots, engine_time, data` (R75); `engine_time` is carried and never read (R89). -/
def execEncprep (lkey : Bytes 16) (boots time : Word) (data : List Byte) (s : State) : Outcome :=
  complete (.encprep lkey boots time data) s fun t => encprepEffect lkey boots data t

/-- `DECPREP lkey, engine_boots, engine_time, salt, len` (R80): the length check, then the key and the IV from all 8
bytes of the salt given; `engine_boots` and `engine_time` are carried and never read (R89). -/
def execDecprep (lkey : Bytes 16) (boots time : Word) (salt : Bytes 8) (len : Word) (s : State) : Outcome :=
  complete (.decprep lkey boots time salt len) s fun t =>
    respond (.decPrepared (ksplit lkey).1 (xor8 salt (ksplit lkey).2)) t

end Sys2Proof.Machine
end

