-- ==== Sys2Proof/Machine/SaltFraming.lean ====
section
/-! DEFINITION. Salt framing and the IV combiner: `FRAME` and `IVXOR` (spec/44_salt_framing_and_iv.md). -/

namespace Sys2Proof.Machine

/-- `FRAME engine_boots, local` (R67): answers the framed salt; it does not draw. -/
def execFrame (boots loc : Word) (s : State) : Outcome :=
  .next (respond (.framed (frame s.cfg.fieldMask boots loc)) s)

/-- `IVXOR salt, pre_iv` (R71): answers the IV, which is not kept. -/
def execIvxor (salt preIv : Bytes 8) (s : State) : Outcome :=
  .next (respond (.combined (xor8 salt preIv)) s)

end Sys2Proof.Machine
end

