-- ==== Sys2Proof/Machine/SaltSequence.lean ====
section
/-! DEFINITION. The salt counter: `NEXT` (spec/42_salt_sequence.md). -/

namespace Sys2Proof.Machine

/-- `NEXT` (R55): one draw, whose value is answered; it always answers `OK`. -/
def execNext (s : State) : Outcome :=
  .next (respond (.drawn (counterWord (draw s).1)) (draw s).2)

end Sys2Proof.Machine
end

