-- ==== Sys2Proof/Machine/Dispatch.lean ====
section
/-! DEFINITION. One arm per command (spec/30_encoding.md R37). -/

namespace Sys2Proof.Machine

/-- The meaning of each command. -/
def exec (i : Instr) (s : State) : Host.Outcome State Fault Refusal :=
  match i with
  | .pad bs data => Sys2Proof.Machine.execPad bs data s
  | .next => Sys2Proof.Machine.execNext s
  | .ksplit lkey => Sys2Proof.Machine.execKsplit lkey s
  | .frame boots loc => Sys2Proof.Machine.execFrame boots loc s
  | .ivxor salt preIv => Sys2Proof.Machine.execIvxor salt preIv s
  | .encprep lkey boots time data => Sys2Proof.Machine.execEncprep lkey boots time data s
  | .decprep lkey boots time salt len => Sys2Proof.Machine.execDecprep lkey boots time salt len s

end Sys2Proof.Machine
end

