-- ==== Sys2Proof/Machine/Port.lean ====
section
/-! DEFINITION. What the block does with one packet of its port (spec/30_encoding.md R35, R44, R45; spec/20_memory.md
R31). -/

namespace Sys2Proof.Machine

/-- Execute one packet, already taken from the port: an undecodable packet is an illegal command, whose response is
`ILLEGAL_CMD` and which changes nothing else (R44, R45); any other is the command it decodes to. -/
def execPacket (p : Packet) (s : State) : Outcome :=
  match decode p with
  | .error _ => .next (raise .illegalCmd s)
  | .ok i => exec i s

/-- Place a packet at the head of the port, where the next step takes it, ahead of the packets that wait there already.
The spec leaves the order of acceptance to what stands outside the block (spec/20_memory.md R31(e)): that this packet comes
first is a DESIGN CHOICE (log entry 18). -/
def placePacket (p : Packet) (s : State) : State :=
  { s with port := p :: s.port }

end Sys2Proof.Machine
end

