-- ==== Sys2Proof/Machine/Step.lean ====
section
/-! DEFINITION. One step of the block: one command, taken from the port and run to completion
(spec/20_memory.md R31). -/

namespace Sys2Proof.Machine

/-- Take the next packet of the port and execute it. With no packet at the port nothing happens (log entry 2). -/
def step (s : State) : Host.Outcome State Fault Refusal :=
  match takePacket s with
  | none => .next s
  | some (p, t) => execPacket p t

/-- The state in which the next step runs the command whose bits are `w`: its packet stands at the head of the port. -/
def State.withFetchWord (s : State) (nbits w : Nat) : State :=
  placePacket (packetOfWord nbits w) s

end Sys2Proof.Machine
end

