-- ==== Sys2Proof/Machine/Asm.lean ====
section
/-! DEFINITION. The assembler syntax of spec/30_encoding.md R47 and the pseudo-instructions of R48: one command a line, as
a list of characters. It is notation for the host's programs; the block never sees it. -/

namespace Sys2Proof.Machine

/-- The lower-case hexadecimal digit of a number below 16. -/
def hexDigit (n : Nat) : Char :=
  ['0', '1', '2', '3', '4', '5', '6', '7', '8', '9', 'a', 'b', 'c', 'd', 'e', 'f'].getD n '0'

/-- The two hexadecimal digits of a byte. -/
def hexOfByte (b : Byte) : List Char :=
  [hexDigit (b.toNat / 16), hexDigit (b.toNat % 16)]

/-- Hexadecimal digits of a byte sequence, first byte first. -/
def hexOfBytes (l : List Byte) : List Char :=
  l.flatMap hexOfByte

/-- A 32-bit operand, written in `0x` hexadecimal. -/
def asmWord (v : Word) : List Char :=
  '0' :: 'x' :: hexOfBytes (be32 v)

/-- An 8-bit operand, written in `0x` hexadecimal. -/
def asmByte (b : Byte) : List Char :=
  '0' :: 'x' :: hexOfByte b

/-- A byte-sequence operand, written `x"..."`. -/
def asmBytes (l : List Byte) : List Char :=
  'x' :: '"' :: hexOfBytes l ++ ['"']

/-- The mnemonics of R37. -/
def Instr.mnemonic : Instr → List Char
  | .pad _ _ => ['P', 'A', 'D']
  | .next => ['N', 'E', 'X', 'T']
  | .ksplit _ => ['K', 'S', 'P', 'L', 'I', 'T']
  | .frame _ _ => ['F', 'R', 'A', 'M', 'E']
  | .ivxor _ _ => ['I', 'V', 'X', 'O', 'R']
  | .encprep _ _ _ _ => ['E', 'N', 'C', 'P', 'R', 'E', 'P']
  | .decprep _ _ _ _ _ => ['D', 'E', 'C', 'P', 'R', 'E', 'P']

/-- The operands in the order of the format; the `len` of a payload is not written (R47). -/
def Instr.asmOperands : Instr → List (List Char)
  | .pad bs data => [asmByte bs, asmBytes data]
  | .next => []
  | .ksplit lkey => [asmBytes lkey.1]
  | .frame boots loc => [asmWord boots, asmWord loc]
  | .ivxor salt preIv => [asmBytes salt.1, asmBytes preIv.1]
  | .encprep lkey boots time data => [asmBytes lkey.1, asmWord boots, asmWord time, asmBytes data]
  | .decprep lkey boots time salt len =>
    [asmBytes lkey.1, asmWord boots, asmWord time, asmBytes salt.1, asmWord len]

/-- Operands separated by commas. -/
def commaList : List (List Char) → List Char
  | [] => []
  | [a] => a
  | a :: rest => a ++ [',', ' '] ++ commaList rest

/-- One command as a line of assembler text (R47). -/
def Instr.asm (i : Instr) : List Char :=
  match Instr.asmOperands i with
  | [] => Instr.mnemonic i
  | ops => Instr.mnemonic i ++ ' ' :: commaList ops

/-- The value of a decimal digit. -/
def decVal (c : Char) : Option Nat :=
  if '0' ≤ c ∧ c ≤ '9' then some (c.toNat - 48) else none

/-- The value of a hexadecimal digit, of either case. -/
def hexVal (c : Char) : Option Nat :=
  if '0' ≤ c ∧ c ≤ '9' then some (c.toNat - 48)
  else if 'a' ≤ c ∧ c ≤ 'f' then some (c.toNat - 87)
  else if 'A' ≤ c ∧ c ≤ 'F' then some (c.toNat - 55)
  else none

/-- The digits that follow, read in a base on top of what was read before, and the rest of the line. -/
def readDigits (val : Char → Option Nat) (base acc : Nat) : List Char → Nat × List Char
  | [] => (acc, [])
  | c :: rest =>
    match val c with
    | some d => readDigits val base (base * acc + d) rest
    | none => (acc, c :: rest)

/-- At least one digit. -/
def readNumber (val : Char → Option Nat) (base : Nat) : List Char → Option (Nat × List Char)
  | [] => none
  | c :: rest => (val c).map fun d => readDigits val base d rest

/-- An integer operand, in decimal or as `0x` hexadecimal (R47). -/
def readInt : List Char → Option (Nat × List Char)
  | '0' :: 'x' :: rest => readNumber hexVal 16 rest
  | cs => readNumber decVal 10 cs

/-- An integer operand of width `n`; a larger number is no such operand. -/
def readBits (n : Nat) (cs : List Char) : Option (BitVec n × List Char) :=
  match readInt cs with
  | some (v, rest) => if v < 2 ^ n then some (BitVec.ofNat n v, rest) else none
  | none => none

/-- An even number of hexadecimal digits and the closing quotation mark. -/
def readHexPairs : List Char → Option (List Byte × List Char)
  | [] => none
  | [c] => if c = '"' then some ([], []) else none
  | a :: b :: rest =>
    if a = '"' then some ([], b :: rest)
    else
      match hexVal a, hexVal b, readHexPairs rest with
      | some h, some l, some (bs, r) => some (BitVec.ofNat 8 (16 * h + l) :: bs, r)
      | _, _, _ => none

/-- ASCII characters, one byte each, and the closing quotation mark. -/
def readAscii : List Char → Option (List Byte × List Char)
  | [] => none
  | c :: rest =>
    if c = '"' then some ([], rest)
    else if c.toNat < 128 then (readAscii rest).map fun q => (BitVec.ofNat 8 c.toNat :: q.1, q.2)
    else none

/-- A byte-sequence operand: `x"..."` or an ASCII string (R47). -/
def readBytes : List Char → Option (List Byte × List Char)
  | 'x' :: '"' :: rest => readHexPairs rest
  | '"' :: rest => readAscii rest
  | _ => none

/-- A byte-sequence operand of length exactly `n`. -/
def readBytesOf (n : Nat) (cs : List Char) : Option (Bytes n × List Char) :=
  match readBytes cs with
  | some (l, rest) => if h : l.length = n then some (⟨l, h⟩, rest) else none
  | none => none

/-- Spaces between the words of a line. -/
def skipSpaces (cs : List Char) : List Char :=
  cs.dropWhile (· = ' ')

/-- The comma between two operands, with spaces on either side. -/
def readComma (cs : List Char) : Option (List Char) :=
  match skipSpaces cs with
  | ',' :: rest => some (skipSpaces rest)
  | _ => none

/-- The end of a line: nothing but spaces. -/
def readEnd (cs : List Char) (i : Instr) : Option Instr :=
  if skipSpaces cs = [] then some i else none

/-- The operands of a mnemonic, in the order of the format (R47), `PAD8` and `DISCARD` among them (R48). -/
def readOperands (word cs : List Char) : Option Instr := do
  if word = ['P', 'A', 'D'] then
    let (bs, r1) ← readBits 8 cs
    let (data, r2) ← readBytes (← readComma r1)
    readEnd r2 (.pad bs data)
  else if word = ['P', 'A', 'D', '8'] then
    let (data, r1) ← readBytes cs
    readEnd r1 (.pad8 data)
  else if word = ['N', 'E', 'X', 'T'] then
    readEnd cs .next
  else if word = ['D', 'I', 'S', 'C', 'A', 'R', 'D'] then
    readEnd cs .discard
  else if word = ['K', 'S', 'P', 'L', 'I', 'T'] then
    let (lkey, r1) ← readBytesOf 16 cs
    readEnd r1 (.ksplit lkey)
  else if word = ['F', 'R', 'A', 'M', 'E'] then
    let (boots, r1) ← readBits 32 cs
    let (loc, r2) ← readBits 32 (← readComma r1)
    readEnd r2 (.frame boots loc)
  else if word = ['I', 'V', 'X', 'O', 'R'] then
    let (salt, r1) ← readBytesOf 8 cs
    let (preIv, r2) ← readBytesOf 8 (← readComma r1)
    readEnd r2 (.ivxor salt preIv)
  else if word = ['E', 'N', 'C', 'P', 'R', 'E', 'P'] then
    let (lkey, r1) ← readBytesOf 16 cs
    let (boots, r2) ← readBits 32 (← readComma r1)
    let (time, r3) ← readBits 32 (← readComma r2)
    let (data, r4) ← readBytes (← readComma r3)
    readEnd r4 (.encprep lkey boots time data)
  else if word = ['D', 'E', 'C', 'P', 'R', 'E', 'P'] then
    let (lkey, r1) ← readBytesOf 16 cs
    let (boots, r2) ← readBits 32 (← readComma r1)
    let (time, r3) ← readBits 32 (← readComma r2)
    let (salt, r4) ← readBytesOf 8 (← readComma r3)
    let (len, r5) ← readBits 32 (← readComma r4)
    readEnd r5 (.decprep lkey boots time salt len)
  else none

/-- The command that one line of assembler text stands for (R47, R48); nothing where the line is not of that syntax. -/
def assemble (line : List Char) : Option Instr :=
  let cs := skipSpaces line
  readOperands (cs.takeWhile (· != ' ')) (skipSpaces (cs.dropWhile (· != ' ')))

/-- A program: one command a line, as the packets the host presents. -/
def assembleProgram (lines : List (List Char)) : Option (List Packet) :=
  lines.mapM fun l => (assemble l).map encode

/-- A field of a response, written `field=value` (R47). -/
def asmField (name value : List Char) : List Char :=
  name ++ '=' :: value

/-- The fields of a response (R39), the status first. -/
def Response.asmFields : Response → List (List Char)
  | .padded out =>
    [asmStatus ['O', 'K'], asmField ['o', 'u', 't', 'l', 'e', 'n'] (asmWord (BitVec.ofNat 32 out.length)),
      asmField ['o', 'u', 't'] (asmBytes out)]
  | .drawn v => [asmStatus ['O', 'K'], asmField ['v', 'a', 'l', 'u', 'e'] (asmWord v)]
  | .split ck pv => [asmStatus ['O', 'K'], asmKey ck, asmField ['p', 'r', 'e', '_', 'i', 'v'] (asmBytes pv.1)]
  | .framed salt => [asmStatus ['O', 'K'], asmField ['s', 'a', 'l', 't'] (asmBytes salt.1)]
  | .combined iv => [asmStatus ['O', 'K'], asmField ['i', 'v'] (asmBytes iv.1)]
  | .encPrepared ck iv salt out =>
    [asmStatus ['O', 'K'], asmKey ck, asmField ['i', 'v'] (asmBytes iv.1),
      asmField ['s', 'a', 'l', 't'] (asmBytes salt.1),
      asmField ['o', 'u', 't', 'l', 'e', 'n'] (asmWord (BitVec.ofNat 32 out.length)),
      asmField ['o', 'u', 't'] (asmBytes out)]
  | .decPrepared ck iv => [asmStatus ['O', 'K'], asmKey ck, asmField ['i', 'v'] (asmBytes iv.1)]
  | .failed .formatError => [asmStatus ['F', 'O', 'R', 'M', 'A', 'T', '_', 'E', 'R', 'R', 'O', 'R']]
  | .failed .illegalCmd => [asmStatus ['I', 'L', 'L', 'E', 'G', 'A', 'L', '_', 'C', 'M', 'D']]
where
  asmStatus (v : List Char) : List Char := asmField ['s', 't', 'a', 't', 'u', 's'] v
  asmKey (ck : Bytes 8) : List Char :=
    asmField ['c', 'i', 'p', 'h', 'e', 'r', '_', 'k', 'e', 'y'] (asmBytes ck.1)

/-- A response as text: `-> field=value, ...` (R47). -/
def Response.asm (r : Response) : List Char :=
  ['-', '>', ' '] ++ commaList (Response.asmFields r)

end Sys2Proof.Machine
end

