-- ==== Sys2Proof/Machine/Composition.lean ====
section
/-! DEFINITION. The host's `encrypt` and `decrypt`: the block composed with the external collaborators
(spec/45_privacy_engine.md, section 3). These describe the host, not the block; the collaborators are parameters. -/

namespace Sys2Proof.Machine

/-- The external collaborators (R82), each possibly failing (R88). They keep no state from one call to the next. The spec
says that a failure "propagates unmodified" and gives it no value (spec/60_exceptions.md R93): that every failure of a
collaborator is the one `none`, with no content, is a DESIGN CHOICE (log entry 19). -/
structure Collaborators (Key EngineId : Type) where
  /-- `localize(key, engineID)`: the 16-byte localized key. -/
  localize : Key → EngineId → Option (Bytes 16)
  /-- `CBC_ENC(key, iv, data)`. -/
  cbcEnc : Bytes 8 → Bytes 8 → List Byte → Option (List Byte)
  /-- `CBC_DEC(key, iv, data)`. -/
  cbcDec : Bytes 8 → Bytes 8 → List Byte → Option (List Byte)

variable {Key EngineId : Type}

/-- CBC-LEN (R83): when it does not fail, the output is as long as the input. A named hypothesis, never a fact. -/
def Collaborators.CbcLen (x : Collaborators Key EngineId) : Prop :=
  ∀ (k v : Bytes 8) (d y : List Byte), d.length % blockSize = 0 →
    (x.cbcEnc k v d = some y → y.length = d.length) ∧ (x.cbcDec k v d = some y → y.length = d.length)

/-- CBC-INV (R83): when neither fails, decryption inverts encryption under the same key and IV. -/
def Collaborators.CbcInv (x : Collaborators Key EngineId) : Prop :=
  ∀ (k v : Bytes 8) (d y z : List Byte), d.length % blockSize = 0 →
    x.cbcEnc k v d = some y → x.cbcDec k v y = some z → z = d

/-- CBC-IVSENS (R83): for at least one block of input, different IVs give different ciphertexts. -/
def Collaborators.CbcIvSens (x : Collaborators Key EngineId) : Prop :=
  ∀ (k v v' : Bytes 8) (d y y' : List Byte), d.length % blockSize = 0 → blockSize ≤ d.length → v ≠ v' →
    x.cbcEnc k v d = some y → x.cbcEnc k v' d = some y' → y ≠ y'

/-- How the host's `encrypt` or `decrypt` fails (spec/60_exceptions.md R93, R94). The kinds are those of R94; that a kind
carries no detail of the failure (a bad key length, an internal failure) is a DESIGN CHOICE (log entry 19), and what the
host does with `ILLEGAL_CMD` is log entry 14. -/
inductive HostError where
  /-- The localisation call failed: "a fatal configuration error, not retried". -/
  | keyDerivation
  /-- The cipher call failed. -/
  | cipher
  /-- The block answered `FORMAT_ERROR`. -/
  | format
  /-- The block answered `ILLEGAL_CMD`, or the length cannot be written in the 32-bit `len` field. -/
  | illegalCommand
  /-- The block gave no answer of the form of spec/30_encoding.md R39. -/
  | noAnswer
  deriving DecidableEq, Repr

/-- Present one packet, let the block execute it, and read its one response packet (spec/30_encoding.md R35): the
`step : State -> Command -> State x Response` of spec/20_memory.md R31. Where other packets wait at the port, this one is
taken before them: where it falls in the merged order is open (R31(e), spec/60_exceptions.md R102,
spec/93_implementation_defined.md U6), and the head is a DESIGN CHOICE (log entry 18). -/
def transact (p : Packet) (s : State) : Option (Packet × State) :=
  match step (placePacket p s) with
  | .next t => t.responses.getLast?.map fun r => (r, t)
  | .fault _ => none
  | .refused _ => none

/-- The result fields of a response whose status is `OK`, or the error that its status is (spec/60_exceptions.md R90). -/
def readStatus : Packet → Except HostError (List Byte)
  | [] => .error .noAnswer
  | st :: body =>
    if st = okCode then .ok body
    else if st = ErrorKind.formatError.code then .error .format
    else .error .illegalCommand

/-- The result fields of `ENCPREP` (spec/30_encoding.md R39). -/
structure EncprepResult where
  /-- The key for the cipher call. -/
  cipherKey : Bytes 8
  /-- The IV for the cipher call. -/
  iv : Bytes 8
  /-- The salt to transmit with the ciphertext. -/
  salt : Bytes 8
  /-- The padded plaintext. -/
  out : List Byte
  deriving DecidableEq, Repr

/-- The result fields of `DECPREP` (spec/30_encoding.md R39). -/
structure DecprepResult where
  /-- The key for the cipher call. -/
  cipherKey : Bytes 8
  /-- The IV for the cipher call. -/
  iv : Bytes 8
  deriving DecidableEq, Repr

/-- Cut the result fields of `ENCPREP` out of the bytes after its status. -/
def cutEncprep (body : List Byte) : Option EncprepResult := do
  let (ck, r1) ← cut 8 body
  let (iv, r2) ← cut 8 r1
  let (salt, r3) ← cut 8 r2
  let (outlen, out) ← cutWord r3
  if out.length = outlen.toNat then some ⟨ck, iv, salt, out⟩ else none

/-- Cut the result fields of `DECPREP` out of the bytes after its status. -/
def cutDecprep (body : List Byte) : Option DecprepResult := do
  let (ck, r1) ← cut 8 body
  let (iv, r2) ← cut 8 r1
  if r2 = [] then some ⟨ck, iv⟩ else none

/-- Read a response: its status, then its result fields with `fields`. -/
def readWith {α : Type} (fields : List Byte → Option α) (r : Packet) : Except HostError α :=
  match readStatus r with
  | .error e => .error e
  | .ok body =>
    match fields body with
    | none => .error .noAnswer
    | some q => .ok q

/-- `encrypt(key, engineID, engineBoots, engineTime, plaintext)` as the host performs it (R84): the ciphertext and the
salt to transmit, and the state of the block afterwards (a failure after `ENCPREP` does not roll `SALT` back, R88). -/
def encrypt (x : Collaborators Key EngineId) (key : Key) (eid : EngineId) (boots time : Word) (plaintext : List Byte)
    (s : State) : Except HostError (List Byte × Bytes 8) × State :=
  match x.localize key eid with
  | none => (.error .keyDerivation, s)
  | some lkey =>
    match transact (encode (.encprep lkey boots time plaintext)) s with
    | none => (.error .noAnswer, s)
    | some (r, t) =>
      match readWith cutEncprep r with
      | .error e => (.error e, t)
      | .ok q =>
        match x.cbcEnc q.cipherKey q.iv q.out with
        | none => (.error .cipher, t)
        | some ct => (.ok (ct, q.salt), t)

/-- The part of `decrypt` after localisation (R85): `DECPREP`, and the cipher call only where its status is `OK`. -/
def decryptWith (x : Collaborators Key EngineId) (lkey : Bytes 16) (boots time : Word) (salt : Bytes 8)
    (ciphertext : List Byte) (s : State) : Except HostError (List Byte) × State :=
  if 2 ^ 32 ≤ ciphertext.length then (.error .illegalCommand, s)
  else
    match transact (encode (.decprep lkey boots time salt (BitVec.ofNat 32 ciphertext.length))) s with
    | none => (.error .noAnswer, s)
    | some (r, t) =>
      match readWith cutDecprep r with
      | .error e => (.error e, t)
      | .ok q =>
        match x.cbcDec q.cipherKey q.iv ciphertext with
        | none => (.error .cipher, t)
        | some pt => (.ok pt, t)

/-- `decrypt(key, engineID, engineBoots, engineTime, salt, ciphertext)` as the host performs it (R85): raw bytes, no
unpadding. -/
def decrypt (x : Collaborators Key EngineId) (key : Key) (eid : EngineId) (boots time : Word) (salt : Bytes 8)
    (ciphertext : List Byte) (s : State) : Except HostError (List Byte) × State :=
  match x.localize key eid with
  | none => (.error .keyDerivation, s)
  | some lkey => decryptWith x lkey boots time salt ciphertext s

/-- The other admissible order (R85, spec/93_implementation_defined.md U13): the host tests the length itself before it
localises. -/
def decryptCheckFirst (x : Collaborators Key EngineId) (key : Key) (eid : EngineId) (boots time : Word) (salt : Bytes 8)
    (ciphertext : List Byte) (s : State) : Except HostError (List Byte) × State :=
  if ciphertext.length % blockSize ≠ 0 then (.error .format, s)
  else decrypt x key eid boots time salt ciphertext s

end Sys2Proof.Machine
end

