-- ==== Sys2Proof/Safety.lean ====
section
/-! DEFINITION. The terms in which claims about the block are stated: runs, illegal packets, the shape of a response, the
draws of a command. Each is written from the spec's own words, not from the machine's text. -/

namespace Sys2Proof.Safety

open Sys2Proof.Machine

/-- The state after `n` steps, nothing where one of them does not answer a next state. -/
def after : Nat → State → Option State
  | 0, s => some s
  | n + 1, s =>
    match step s with
    | .next t => after n t
    | .fault _ => none
    | .refused _ => none

/-- The fixed part of each format in bytes, "1, 6, 17, 9, 17, 29, 37 bytes for N, P, K, F, X, E, D"
(spec/30_encoding.md R45(a)); nothing for a reserved opcode (R37, R44). -/
def fixedPart (op : Byte) : Option Nat :=
  if op = 0x01 then some 6
  else if op = 0x02 then some 1
  else if op = 0x03 then some 17
  else if op = 0x04 then some 9
  else if op = 0x05 then some 17
  else if op = 0x06 then some 29
  else if op = 0x07 then some 37
  else none

/-- The number that four bytes of a packet make, most significant first (R36). -/
def numberAt (p : Packet) (off : Nat) : Nat :=
  (p.getD off 0).toNat * 2 ^ 24 + (p.getD (off + 1) 0).toNat * 2 ^ 16 + (p.getD (off + 2) 0).toNat * 2 ^ 8
    + (p.getD (off + 3) 0).toNat

/-- Where the `len` field of a format stands: [2..5] in P, [25..28] in E, [33..36] in D (R38). -/
def lenOffset (op : Byte) : Option Nat :=
  if op = 0x01 then some 2 else if op = 0x06 then some 25 else if op = 0x07 then some 33 else none

/-- The `len` field of a packet; 0 in a format that has none. -/
def lenField (p : Packet) : Nat :=
  match lenOffset (p.getD 0 0) with
  | some off => numberAt p off
  | none => 0

/-- How many payload bytes the format carries: `len` in formats P and E, none in the others (R46). -/
def payloadLength (p : Packet) : Nat :=
  if p.getD 0 0 = 0x07 then 0 else lenField p

/-- The conditions of R44 and R45, each read off the packet's bytes: the empty packet, a reserved opcode, (a) shorter
than the fixed part, (b) not the length the format requires, (c) `len > MAX_LEN`, (d) `PAD` with `bs = 0`. -/
def illegalPacket (cfg : Config) (p : Packet) : Bool :=
  p.isEmpty ||
  match fixedPart (p.getD 0 0) with
  | none => true
  | some n =>
    decide (p.length < n) || decide (p.length ≠ n + payloadLength p) || decide (cfg.maxLen.val < lenField p) ||
      (p.getD 0 0 == 0x01 && p.getD 1 0 == 0)

/-- The form of a response packet (spec/30_encoding.md R39, spec/60_exceptions.md R90, R97): an error is the status byte
alone; an `OK` response has the length of one of the seven rows of R39, and `outlen` says how long `out` is. -/
abbrev ResponseForm (r : Packet) : Prop :=
  r = [0x01] ∨ r = [0x02] ∨
    (r.head? = some 0x00 ∧
      (r.length = 5 ∨ r.length = 9 ∨ r.length = 17 ∨ (5 ≤ r.length ∧ r.length = 5 + numberAt r 1) ∨
        (29 ≤ r.length ∧ r.length = 29 + numberAt r 25 ∧ numberAt r 25 % 8 = 0)))

/-- Every response given so far has the form of a response. -/
abbrev ResponsesFormed (s : State) : Prop :=
  ∀ r ∈ s.responses, ResponseForm r

/-- The packet `p`, presented next, is answered with the one byte `ILLEGAL_CMD`, and nothing else changes
(spec/30_encoding.md R44, R45). -/
abbrev AnsweredIllegal (p : Packet) (s : State) : Prop :=
  step { s with port := p :: s.port } = .next { s with responses := s.responses ++ [[0x02]] }

/-- How many values of the sequence a packet draws: one for `NEXT`, two for `ENCPREP`, none for any other packet and none
for an illegal one (spec/10_state.md R13, spec/45_privacy_engine.md R76, spec/60_exceptions.md R97(b)). -/
def drawsOf (cfg : Config) (p : Packet) : Nat :=
  match decodeCommand cfg p with
  | .ok .next => 1
  | .ok (.encprep _ _ _ _) => 2
  | _ => 0

/-- The draws of a whole sequence of packets. -/
def totalDraws (cfg : Config) (ps : List Packet) : Nat :=
  (ps.map (drawsOf cfg)).sum

/-- The response packets that a run of `n` steps adds; nothing where a step of it does not answer a next state. -/
def answers (n : Nat) (s : State) : Option (List Packet) :=
  (after n s).map fun t => t.responses.drop s.responses.length

/-- A command that neither reads nor writes `SALT` (spec/20_memory.md R34). -/
def isPure : Instr → Bool
  | .pad _ _ => true
  | .next => false
  | .ksplit _ => true
  | .frame _ _ => true
  | .ivxor _ _ => true
  | .encprep _ _ _ _ => false
  | .decprep _ _ _ _ _ => true

/-- The `k`-th value of the sequence of draws that begins in state `s`, counting from 0 (spec/42_salt_sequence.md R58). -/
def drawSeq (s : State) (k : Nat) : Counter :=
  (draw ((fun t => (draw t).2)^[k] s)).1

/-- The values that the step of a state draws, in order: those of the draws of the packet it takes. -/
def drawnBy (s : State) : List Counter :=
  match s.port with
  | [] => []
  | p :: _ => (List.range (drawsOf s.cfg p)).map (drawSeq s)

/-- All values that `n` steps draw, in order, the discarded ones of `ENCPREP` among them (spec/60_exceptions.md R102). -/
def drawnValues : Nat → State → List Counter
  | 0, _ => []
  | n + 1, s =>
    drawnBy s ++
      match step s with
      | .next t => drawnValues n t
      | .fault _ => []
      | .refused _ => []

/-- The salt that the `k`-th `ENCPREP` of a run, counting from 0, frames from the counter when the run begins with
`SALT = s` and no `NEXT` stands in it: from the value `(s + 2k) mod 0xFFFFFFFF` (spec/45_privacy_engine.md R77). -/
def usedSalt (m : FieldMask) (boots : Word) (s : Counter) (k : Nat) : Bytes 8 :=
  frame m boots (BitVec.ofNat 32 ((s.val + 2 * k) % 4294967295))

/-- The salt field of an `ENCPREP` response: bytes 17 to 24 (spec/30_encoding.md R39). -/
def saltField (r : Packet) : List Byte :=
  (r.drop 17).take 8

/-- The operands of one `ENCPREP` command. -/
structure EncprepOperands where
  lkey : Bytes 16
  boots : Word
  time : Word
  data : List Byte
  deriving DecidableEq, Repr

/-- The `ENCPREP` command with given operands. -/
def EncprepOperands.command (c : EncprepOperands) : Instr :=
  .encprep c.lkey c.boots c.time c.data

end Sys2Proof.Safety
end

