-- ==== Sys2Proof/Certificates/Slice0/Obligations.lean ====
section
/-! DEFINITION. The statements for the provers, each after the rule of spec/ it comes from. That the commands and the
responses of a run stand in the state, in `port` and `responses`, is the model's choice (log entries 1 and 3); the host's
errors and collaborators are log entries 12, 14 and 19, and that the host's packet runs before those that wait at the port is
log entry 18. -/

open Sys2Proof Sys2Proof.Machine Sys2Proof.Safety

/-! ### Encoding -/

/-- Decode and encode agree on every command with well-formed operands (spec/30_encoding.md R36, R38, R46). -/
def Obligations.DecodeEncodeAgree : Prop :=
  ∀ (cfg : Config) (i : Instr), i.wellFormed cfg = true →
    decode (encode i) = .ok i ∧ decodeCommand cfg (encode i) = .ok i

/-- Every packet that decodes has exactly the bytes of the command it decodes to: no byte of a packet is dropped
(spec/30_encoding.md R36, R38, R45). -/
def Obligations.EncodeDecodeAgree : Prop :=
  ∀ (p : Packet) (i : Instr), decode p = .ok i → encode i = p

/-- R44 and R45 whole: an illegal packet gets the one byte `ILLEGAL_CMD` and changes nothing else, and every other packet
is one of the seven commands with well-formed operands, which the step runs. -/
def Obligations.IllegalPacketsRefusedOthersRun : Prop :=
  ∀ (s : State) (p : Packet) (rest : List Packet), s.port = p :: rest →
    (illegalPacket s.cfg p = true →
      step s = .next { s with port := rest, responses := s.responses ++ [[0x02]] }) ∧
    (illegalPacket s.cfg p = false →
      ∃ i : Instr, i.wellFormed s.cfg = true ∧ encode i = p ∧ step s = exec i { s with port := rest })

/-- Packets written out from the formats of R38 decode to the commands they stand for (spec/95_test_vectors.md S2, P1,
T18, T23, T30, T35, T43). -/
def Obligations.SamplePacketsDecode : Prop :=
  decode [0x01, 0x08, 0, 0, 0, 5, 0x68, 0x65, 0x6c, 0x6c, 0x6f] = .ok (.pad 8 [0x68, 0x65, 0x6c, 0x6c, 0x6f]) ∧
  decode [0x02] = .ok .next ∧
  decode [0x03, 0, 1, 2, 3, 4, 5, 6, 7, 8, 9, 10, 11, 12, 13, 14, 15] =
    .ok (.ksplit ⟨[0, 1, 2, 3, 4, 5, 6, 7, 8, 9, 10, 11, 12, 13, 14, 15], rfl⟩) ∧
  decode [0x04, 0, 0, 0, 3, 0, 0, 0, 0xab] = .ok (.frame 3 0xAB) ∧
  decode [0x05, 0, 0, 0, 3, 0, 0, 0, 0xab, 0xff, 0xff, 0xff, 0xff, 0xff, 0xff, 0xff, 0xff] =
    .ok (.ivxor ⟨[0, 0, 0, 3, 0, 0, 0, 0xab], rfl⟩ ⟨[0xff, 0xff, 0xff, 0xff, 0xff, 0xff, 0xff, 0xff], rfl⟩) ∧
  decode [0x06, 0, 1, 2, 3, 4, 5, 6, 7, 8, 9, 10, 11, 12, 13, 14, 15, 0, 0, 0, 1, 0, 0, 0, 0, 0, 0, 0, 0] =
    .ok (.encprep ⟨[0, 1, 2, 3, 4, 5, 6, 7, 8, 9, 10, 11, 12, 13, 14, 15], rfl⟩ 1 0 []) ∧
  decode [0x07, 0, 1, 2, 3, 4, 5, 6, 7, 8, 9, 10, 11, 12, 13, 14, 15, 0, 0, 0, 1, 0, 0, 0, 2, 0, 0, 0, 0x78, 0, 0, 0,
      0xff, 0, 0, 0, 0x10] =
    .ok (.decprep ⟨[0, 1, 2, 3, 4, 5, 6, 7, 8, 9, 10, 11, 12, 13, 14, 15], rfl⟩ 1 2
      ⟨[0, 0, 0, 0x78, 0, 0, 0, 0xff], rfl⟩ 16)

/-- Assembling the text of a command gives the command back (spec/30_encoding.md R47). The text is the model's rendering
(log entry 13), one of those R47 allows. -/
def Obligations.AssembleTextAgree : Prop :=
  ∀ i : Instr, assemble (Instr.asm i) = some i

/-! ### The step -/

/-- A step runs the decoded command: the packet is taken from the port, and everything else is the command's own effect
(spec/20_memory.md R31, spec/30_encoding.md R35). -/
def Obligations.StepRunsDecodedCommand : Prop :=
  ∀ (s : State) (p : Packet) (rest : List Packet) (i : Instr), s.port = p :: rest →
    decodeCommand s.cfg p = .ok i → step s = exec i { s with port := rest }

/-- With no packet at the port a step leaves the state as it is: the model's choice (log entry 2), since the spec's block
only acts on a command. -/
def Obligations.EmptyPortStepIdles : Prop :=
  ∀ s : State, s.port = [] → step s = .next s

/-- The state with a word fetched runs that command next: each opcode with every operand bit zero (the host's numbering of
spec/opcode_table.json's words). How a word becomes a packet is the model's reading (log entry 10). -/
def Obligations.FetchedWordRuns : Prop :=
  ∀ s : State,
    step (s.withFetchWord 8 0x01) = exec (.pad 0 []) s ∧
    step (s.withFetchWord 8 0x02) = exec .next s ∧
    step (s.withFetchWord 8 0x03) = exec (.ksplit ⟨List.replicate 16 0, rfl⟩) s ∧
    step (s.withFetchWord 8 0x04) = exec (.frame 0 0) s ∧
    step (s.withFetchWord 8 0x05) = exec (.ivxor ⟨List.replicate 8 0, rfl⟩ ⟨List.replicate 8 0, rfl⟩) s ∧
    step (s.withFetchWord 8 0x06) = exec (.encprep ⟨List.replicate 16 0, rfl⟩ 0 0 []) s ∧
    step (s.withFetchWord 8 0x07) = exec (.decprep ⟨List.replicate 16 0, rfl⟩ 0 0 ⟨List.replicate 8 0, rfl⟩ 0) s

/-- Every packet is answered, by exactly one response of the form of R39 and R90, and the parameters stay as they are
(spec/30_encoding.md R35, R39, spec/60_exceptions.md R90, R95). -/
def Obligations.EveryPacketAnsweredOnce : Prop :=
  ∀ (s : State) (p : Packet) (rest : List Packet), s.port = p :: rest →
    ∃ (t : State) (r : Packet), step s = .next t ∧ ResponseForm r ∧
      t.port = rest ∧ t.cfg = s.cfg ∧ t.responses = s.responses ++ [r]

/-- Every step keeps the form of all responses given so far (R39, R90). -/
def Obligations.StepKeepsResponsesFormed : Prop :=
  ∀ s t : State, ResponsesFormed s → step s = .next t → ResponsesFormed t

/-- The responses have their form at reset, whatever the seed and the parameters: there are none (R108). -/
def Obligations.ResetResponsesFormed : Prop :=
  (∀ (cfg : Config) (seed : Seed), ResponsesFormed (State.resetWith cfg seed)) ∧ ResponsesFormed State.reset

/-! ### The commands -/

/-- R50: `PAD` with legal operands answers `OK` and the payload followed by zero bytes up to the next multiple of `bs`,
whose length fits the 32-bit `outlen`; with `bs = 0`, too long a payload or the wrong packet length it is `ILLEGAL_CMD`;
nothing else changes. By R45 a packet with `bs = 0` or too long a payload never becomes a command: that executing such a
term answers `ILLEGAL_CMD` is the model's choice (log entries 7 and 17). -/
def Obligations.PadAnswersPaddedPayload : Prop :=
  (∀ (bs : Byte) (data : List Byte) (s : State),
    let n := bs.toNat * ((data.length + bs.toNat - 1) / bs.toNat)
    (bs ≠ 0 → data.length ≤ s.cfg.maxLen.val → n < 2 ^ 32 ∧ data.length ≤ n ∧
      exec (.pad bs data) s = .next { s with responses := s.responses ++
        [0x00 :: be32 (BitVec.ofNat 32 n) ++ data ++ List.replicate (n - data.length) 0x00] }) ∧
    (bs = 0 ∨ s.cfg.maxLen.val < data.length →
      exec (.pad bs data) s = .next { s with responses := s.responses ++ [[0x02]] })) ∧
  (∀ (p : Packet) (s : State), p.head? = some 0x01 → p.length ≠ 6 + numberAt p 2 → AnsweredIllegal p s)

/-- R55: `NEXT` always answers `OK` and the value `SALT` held, never 0xFFFFFFFF; `SALT` becomes its successor; nothing
else changes. -/
def Obligations.NextAnswersAndAdvances : Prop :=
  ∀ s : State, ∃ t : State, exec .next s = .next t ∧
    t.salt.val = (if s.salt.val = 0xFFFFFFFE then 0 else s.salt.val + 1) ∧
    t.responses = s.responses ++ [0x00 :: be32 (BitVec.ofNat 32 s.salt.val)] ∧
    BitVec.ofNat 32 s.salt.val ≠ 0xFFFFFFFF ∧ t.port = s.port ∧ t.cfg = s.cfg

/-- R63: `KSPLIT` answers `OK`, the first 8 and the last 8 bytes of the key, for any 16 bytes; a packet that is not 17
bytes is `ILLEGAL_CMD`; nothing else changes. -/
def Obligations.KsplitAnswersHalves : Prop :=
  (∀ (lkey : Bytes 16) (s : State),
    exec (.ksplit lkey) s =
      .next { s with responses := s.responses ++ [0x00 :: (lkey.1.take 8 ++ lkey.1.drop 8)] }) ∧
  (∀ (p : Packet) (s : State), p.head? = some 0x03 → p.length ≠ 17 → AnsweredIllegal p s)

/-- R67 and R68: `FRAME` answers `OK` and the salt, the two low bytes each in a field of four under the mask of this
hardware and the two whole values under the other legal mask; a packet that is not 9 bytes is `ILLEGAL_CMD`; nothing else
changes. -/
def Obligations.FrameAnswersSalt : Prop :=
  (∀ (boots loc : Word) (s : State),
    exec (.frame boots loc) s = .next { s with responses := s.responses ++
      [match s.cfg.fieldMask with
        | .lowByte => [0x00, 0, 0, 0, boots.setWidth 8, 0, 0, 0, loc.setWidth 8]
        | .full => 0x00 :: (be32 boots ++ be32 loc)] }) ∧
  (∀ (p : Packet) (s : State), p.head? = some 0x04 → p.length ≠ 9 → AnsweredIllegal p s)

/-- R71 and R72: `IVXOR` answers `OK` and the 8 bytes whose byte `i` is `salt[i] ^ pre_iv[i]`, for any 8 bytes of salt; a
packet that is not 17 bytes is `ILLEGAL_CMD`; nothing else changes. -/
def Obligations.IvxorAnswersBytewiseXor : Prop :=
  (∀ (salt preIv : Bytes 8) (s : State), ∃ iv : Bytes 8,
    (∀ k < 8, iv.1.getD k 0 = salt.1.getD k 0 ^^^ preIv.1.getD k 0) ∧
    exec (.ivxor salt preIv) s = .next { s with responses := s.responses ++ [0x00 :: iv.1] }) ∧
  (∀ (p : Packet) (s : State), p.head? = some 0x05 → p.length ≠ 17 → AnsweredIllegal p s)

/-- R75 and R76: `ENCPREP` answers `OK`, the cipher key, the IV, the salt framed from the value `SALT` held, and the
payload padded to 8; `SALT` advances by two modulo 0xFFFFFFFF; a payload above `MAX_LEN` and a packet of the wrong length
are `ILLEGAL_CMD` without a draw; nothing else changes. By R45 a packet with too long a payload never becomes a command:
that executing such a term answers `ILLEGAL_CMD` is the model's choice (log entries 7 and 17). -/
def Obligations.EncprepPreparesAndDrawsTwice : Prop :=
  (∀ (lkey : Bytes 16) (boots time : Word) (data : List Byte) (s : State),
    (data.length ≤ s.cfg.maxLen.val → ∃ t : State,
      exec (.encprep lkey boots time data) s = .next t ∧
      t.salt.val = (s.salt.val + 2) % 4294967295 ∧ t.port = s.port ∧ t.cfg = s.cfg ∧
      t.responses = s.responses ++
        [0x00 :: ((ksplit lkey).1.1 ++
          (xor8 (frame s.cfg.fieldMask boots (BitVec.ofNat 32 s.salt.val)) (ksplit lkey).2).1 ++
          (frame s.cfg.fieldMask boots (BitVec.ofNat 32 s.salt.val)).1 ++
          be32 (BitVec.ofNat 32 (8 * ((data.length + 7) / 8))) ++
          data ++ List.replicate (8 * ((data.length + 7) / 8) - data.length) 0x00)]) ∧
    (s.cfg.maxLen.val < data.length →
      exec (.encprep lkey boots time data) s = .next { s with responses := s.responses ++ [[0x02]] })) ∧
  (∀ (p : Packet) (s : State), p.head? = some 0x06 → p.length ≠ 29 + numberAt p 25 → AnsweredIllegal p s)

/-- R80 and R96: `DECPREP` with `len > MAX_LEN` is `ILLEGAL_CMD` whatever `len mod 8` is; otherwise, with `len` no multiple
of 8, it is `FORMAT_ERROR`; otherwise it answers `OK`, the cipher key and the IV from all 8 bytes of the salt. Nothing else
changes on any path. By R45(c) a packet with `len > MAX_LEN` never becomes a command: that executing such a term answers
`ILLEGAL_CMD` is the model's choice (log entries 7 and 17). -/
def Obligations.DecprepChecksThenCombines : Prop :=
  ∀ (lkey : Bytes 16) (boots time : Word) (salt : Bytes 8) (len : Word) (s : State),
    exec (.decprep lkey boots time salt len) s = .next { s with responses := s.responses ++
      [if s.cfg.maxLen.val < len.toNat then [0x02]
       else if len.toNat % 8 ≠ 0 then [0x01]
       else 0x00 :: (lkey.1.take 8 ++ List.zipWith (· ^^^ ·) salt.1 (lkey.1.drop 8))] }

/-! ### Errors -/

/-- R91: the response is `FORMAT_ERROR` exactly where the packet is a well-formed `DECPREP` whose `len` is no multiple of
8, and then it is that one byte; a well-formed `DECPREP` fails in no other way. -/
def Obligations.FormatErrorCause : Prop :=
  ∀ (s t : State) (p : Packet) (rest : List Packet) (r : Packet), s.port = p :: rest → step s = .next t →
    t.responses = s.responses ++ [r] →
    (r.head? = some 0x01 ↔ ∃ (lkey : Bytes 16) (boots time : Word) (salt : Bytes 8) (len : Word),
      decodeCommand s.cfg p = .ok (.decprep lkey boots time salt len) ∧ len.toNat % 8 ≠ 0) ∧
    (r.head? = some 0x01 → r = [0x01]) ∧
    (∀ (lkey : Bytes 16) (boots time : Word) (salt : Bytes 8) (len : Word),
      decodeCommand s.cfg p = .ok (.decprep lkey boots time salt len) →
      r.head? = some (if len.toNat % 8 = 0 then 0x00 else 0x01))

/-- R97: a command that ends with an error has a response of exactly one byte and no other effect. -/
def Obligations.ErrorsHaveNoEffect : Prop :=
  ∀ (s t : State) (p : Packet) (rest : List Packet) (r : Packet), s.port = p :: rest → step s = .next t →
    t.responses = s.responses ++ [r] → r.head? ≠ some 0x00 →
    (r = [0x01] ∨ r = [0x02]) ∧ t = { s with port := rest, responses := s.responses ++ [r] }

/-- R98: after an error the run goes on exactly as if the failed packet had never been presented; only its response stands
between the others. -/
def Obligations.FailedPacketLeavesNoTrace : Prop :=
  ∀ (s : State) (p : Packet) (rest : List Packet) (r : Packet) (n : Nat),
    s.port = p :: rest → answers 1 s = some [r] → r.head? ≠ some 0x00 →
    ∃ t u : State, after (n + 1) s = some t ∧ after n { s with port := rest } = some u ∧
      t.salt = u.salt ∧ t.cfg = u.cfg ∧ t.port = u.port ∧
      ∃ rs : List Packet, u.responses = s.responses ++ rs ∧ t.responses = s.responses ++ r :: rs

/-! ### The salt counter -/

/-- R57: `succ` is the exact integer `s + 1`, or 0 where that would be 0xFFFFFFFF; it is `(s + 1) mod 0xFFFFFFFF`, and it
maps the counter's values one-to-one onto themselves. -/
def Obligations.SuccessorIsModular : Prop :=
  (∀ s : Counter, (succ s).val = if s.val + 1 = 0xFFFFFFFF then 0 else s.val + 1) ∧
  (∀ s : Counter, (succ s).val = (s.val + 1) % 0xFFFFFFFF) ∧
  Function.Bijective succ

/-- R58: `n` draws from `SALT = s` return `(s + k) mod 0xFFFFFFFF` for `k = 0, ..., n - 1` and leave
`(s + n) mod 0xFFFFFFFF`; after reset the `k`-th returns `(seed + k) mod 0xFFFFFFFF`. -/
def Obligations.DrawsClosedForm : Prop :=
  (∀ (s : State) (k : Nat), (drawSeq s k).val = (s.salt.val + k) % 4294967295) ∧
  (∀ (n : Nat) (s : State), s.port = List.replicate n [0x02] → ∃ t : State, after n s = some t ∧
    t.salt.val = (s.salt.val + n) % 4294967295 ∧ t.port = [] ∧ t.cfg = s.cfg ∧
    t.responses = s.responses ++ (List.range n).map
      fun k => 0x00 :: be32 (BitVec.ofNat 32 ((s.salt.val + k) % 4294967295))) ∧
  (∀ (n : Nat) (cfg : Config) (seed : Seed),
    answers n ((State.resetWith cfg seed).present (List.replicate n [0x02])) =
      some ((List.range n).map fun k => 0x00 :: be32 (BitVec.ofNat 32 ((seed.1 + k) % 4294967295))))

/-- R59: consecutive draws differ by exactly 1 except that 0xFFFFFFFE is followed by 0; any 4294967295 consecutive draws
return every value exactly once, and the next repeats the first. -/
def Obligations.DrawsArePeriodic : Prop :=
  (∀ (s : State) (k : Nat), (drawSeq s (k + 1)).val =
    if (drawSeq s k).val = 0xFFFFFFFE then 0 else (drawSeq s k).val + 1) ∧
  (∀ (s : State) (j : Nat) (v : Counter), ∃! k : Nat, (j ≤ k ∧ k < j + 4294967295) ∧ drawSeq s k = v) ∧
  (∀ (s : State) (j : Nat), drawSeq s (j + 4294967295) = drawSeq s j)

/-- R13: a step changes `SALT` only by the draws of its packet: one for `NEXT`, two for `ENCPREP`, none for any other or
for an illegal one. -/
def Obligations.SaltMovesOnlyByDraws : Prop :=
  ∀ (s t : State) (p : Packet) (rest : List Packet), s.port = p :: rest → step s = .next t →
    t.salt.val = (s.salt.val + drawsOf s.cfg p) % 4294967295

/-- A run of any packets, illegal ones among them: every packet is answered, and `SALT` ends at its start plus the number
of draws, modulo 0xFFFFFFFF (spec/42_salt_sequence.md R58, spec/70_reset_and_hazards.md R123). -/
def Obligations.RunAdvancesSaltByDraws : Prop :=
  ∀ (ps : List Packet) (s : State), s.port = ps → ∃ t : State, after ps.length s = some t ∧
    t.salt.val = (s.salt.val + totalDraws s.cfg ps) % 4294967295 ∧ t.port = [] ∧ t.cfg = s.cfg ∧
    ∃ rs : List Packet, rs.length = ps.length ∧ t.responses = s.responses ++ rs

/-- The value of a draw in any merged order of requesters' commands: the start plus the draws before it (R58,
spec/60_exceptions.md R102, R103). -/
def Obligations.DrawnValueInMergedOrder : Prop :=
  ∀ (ps : List Packet) (s : State) (k : Nat), s.port = ps → ps[k]? = some [0x02] →
    ∃ rs : List Packet, answers ps.length s = some rs ∧
      rs[k]? = some (0x00 :: be32 (BitVec.ofNat 32 ((s.salt.val + totalDraws s.cfg (ps.take k)) % 4294967295)))

/-- No two draws of a run return the same value within a counter period, whoever issued them: neither the values that
`NEXT` answers nor those that `ENCPREP` uses or discards (spec/60_exceptions.md R102, spec/42_salt_sequence.md R61). The
value at the place of a packet's first draw is the one a `NEXT` answers and the one an `ENCPREP` frames its salt from. -/
def Obligations.NoValueDrawnTwiceInAPeriod : Prop :=
  ∀ (ps : List Packet) (s : State), s.port = ps →
    ∃ rs : List Packet, answers ps.length s = some rs ∧
      (drawnValues ps.length s).length = totalDraws s.cfg ps ∧
      (totalDraws s.cfg ps ≤ 4294967295 → (drawnValues ps.length s).Nodup) ∧
      (∀ k : Nat, ps[k]? = some [0x02] → ∃ v : Counter,
        (drawnValues ps.length s)[totalDraws s.cfg (ps.take k)]? = some v ∧
        rs[k]? = some (0x00 :: be32 (BitVec.ofNat 32 v.val))) ∧
      (∀ (k : Nat) (c : EncprepOperands), ps[k]? = some (encode c.command) → c.data.length ≤ s.cfg.maxLen.val →
        ∃ v : Counter, (drawnValues ps.length s)[totalDraws s.cfg (ps.take k)]? = some v ∧
          (rs[k]?).map saltField = some (frame s.cfg.fieldMask c.boots (BitVec.ofNat 32 v.val)).1) ∧
      (∀ j k : Nat, j < k → ps[j]? = some [0x02] → ps[k]? = some [0x02] → totalDraws s.cfg ps ≤ 4294967295 →
        ∃ a b : Packet, rs[j]? = some a ∧ rs[k]? = some b ∧ a ≠ b)

/-! ### Padding, key split, salt framing, IV combiner -/

/-- R52 whole: length, the original bytes first, zero bytes after them, aligned input unchanged, at most `bs - 1` bytes
appended, idempotent, the empty sequence stays empty. -/
def Obligations.PadProperties : Prop :=
  ∀ (d : List Byte) (bs : Nat), 1 ≤ bs →
    (pad d bs).length = bs * ((d.length + bs - 1) / bs) ∧
    (pad d bs).length = d.length + (bs - d.length % bs) % bs ∧
    (pad d bs).take d.length = d ∧
    (∀ k, d.length ≤ k → k < (pad d bs).length → (pad d bs)[k]? = some 0x00) ∧
    (d.length % bs = 0 → pad d bs = d) ∧
    (pad d bs).length ≤ d.length + (bs - 1) ∧
    pad (pad d bs) bs = pad d bs ∧
    pad (zeros 0) bs = []

/-- R53: padding has no inverse: a zero byte at the end of an unaligned payload cannot be told from padding. -/
def Obligations.PaddingLosesLength : Prop :=
  ∀ (d : List Byte) (bs : Nat), 1 ≤ bs → d.length % bs ≠ 0 → pad (d ++ [0x00]) bs = pad d bs

/-- R64: the cipher key is `K[0] .. K[7]`, the pre-IV `K[8] .. K[15]`, and together they are `K`. -/
def Obligations.KeySplitHalves : Prop :=
  ∀ k : Bytes 16,
    (∀ n < 8, (ksplit k).1.1[n]? = k.1[n]? ∧ (ksplit k).2.1[n]? = k.1[8 + n]?) ∧
    (ksplit k).1.1 ++ (ksplit k).2.1 = k.1

/-- R70, for the mask of this hardware: the salt depends only on the two low bytes, there are exactly 65536 salts and 256
for a fixed `boots`, bytes 0, 1, 2, 4, 5, 6 are zero, and values 256 apart give the same salt; under the other mask
framing is one-to-one. -/
def Obligations.FramedSaltSpace : Prop :=
  (∀ b b' l l' : Word, b.toNat % 256 = b'.toNat % 256 → l.toNat % 256 = l'.toNat % 256 →
    frame .lowByte b l = frame .lowByte b' l') ∧
  (Set.range fun q : Word × Word => frame .lowByte q.1 q.2).ncard = 65536 ∧
  (∀ b : Word, (Set.range fun l : Word => frame .lowByte b l).ncard = 256) ∧
  (∀ b l : Word, ∀ n ∈ [0, 1, 2, 4, 5, 6], (frame .lowByte b l).1[n]? = some 0x00) ∧
  (∀ b l : Word, frame .lowByte b (l + 256) = frame .lowByte b l) ∧
  Function.Injective fun q : Word × Word => frame .full q.1 q.2

/-- R73 whole: the combiner is commutative, its own inverse, keeps a byte sequence under zeros and gives zeros on equal
ones, differs exactly where salts differ, and under the mask of this hardware leaves all bytes of the pre-IV but 3 and 7. -/
def Obligations.XorProperties : Prop :=
  (∀ a b : Bytes 8, xor8 a b = xor8 b a) ∧
  (∀ a b : Bytes 8, xor8 (xor8 a b) b = a) ∧
  (∀ a : Bytes 8, xor8 a ⟨zeros 8, rfl⟩ = a ∧ xor8 a a = ⟨zeros 8, rfl⟩) ∧
  (∀ a b p : Bytes 8, xor8 (xor8 a p) (xor8 b p) = xor8 a b ∧ (xor8 a p = xor8 b p ↔ a = b)) ∧
  (∀ (b l : Word) (p : Bytes 8),
    (∀ n ∈ [0, 1, 2, 4, 5, 6], (xor8 (frame .lowByte b l) p).1[n]? = p.1[n]?) ∧
    (xor8 (frame .lowByte b l) p).1[3]? = some (p.1.getD 3 0 ^^^ b.setWidth 8) ∧
    (xor8 (frame .lowByte b l) p).1[7]? = some (p.1.getD 7 0 ^^^ l.setWidth 8))

/-! ### Runs of `ENCPREP` -/

/-- R77 whole: the `k`-th `ENCPREP` of a run with no `NEXT` in it frames its salt from `(s + 2k) mod 0xFFFFFFFF` and `SALT`
ends at `(s + 2n) mod 0xFFFFFFFF`; the used values run through all 4294967295 values before any repeats, of one parity
until the counter wraps and of the other after it. -/
def Obligations.EncprepRunClosedForm : Prop :=
  (∀ (cs : List EncprepOperands) (s : State), (∀ c ∈ cs, c.data.length ≤ s.cfg.maxLen.val) →
    s.port = cs.map (fun c => encode c.command) → ∃ (t : State) (rs : List Packet),
      after cs.length s = some t ∧ t.salt.val = (s.salt.val + 2 * cs.length) % 4294967295 ∧
      t.responses = s.responses ++ rs ∧
      ∀ (k : Nat) (c : EncprepOperands), cs[k]? = some c →
        (rs[k]?).map saltField = some (usedSalt s.cfg.fieldMask c.boots s.salt k).1) ∧
  (∀ s v : Counter, ∃! k : Nat, k < 4294967295 ∧ (s.val + 2 * k) % 4294967295 = v.val) ∧
  (∀ (s : Counter) (k : Nat), (s.val + 2 * (k + 4294967295)) % 4294967295 = (s.val + 2 * k) % 4294967295) ∧
  (∀ (s : Counter) (k : Nat), s.val + 2 * k < 4294967295 → (s.val + 2 * k) % 4294967295 % 2 = s.val % 2) ∧
  (∀ (s : Counter) (k : Nat), 4294967295 ≤ s.val + 2 * k → s.val + 2 * k < 8589934590 →
    (s.val + 2 * k) % 4294967295 % 2 ≠ s.val % 2)

/-- R78 whole: (a) consecutive `ENCPREP` never give the same salt, their last bytes differing by 2 modulo 256 or,
where the counter wraps between them, being 0xFD then 0x00 or 0xFE then 0x01; (b) without a wrap numbers `k` and `k +
j` give the same salt exactly when `j` is a multiple of 128; (c) between two wraps every last byte has the parity of
the first; under the other mask the salt repeats only after 4294967295 commands. -/
def Obligations.SaltRepetition : Prop :=
  (∀ (b b' : Word) (s : Counter) (k : Nat), b.setWidth 8 = b'.setWidth 8 →
    usedSalt .lowByte b s k ≠ usedSalt .lowByte b' s (k + 1) ∧
    ∃ x y : Byte, (usedSalt .lowByte b s k).1[7]? = some x ∧ (usedSalt .lowByte b' s (k + 1)).1[7]? = some y ∧
      let v := (s.val + 2 * k) % 4294967295
      (v + 2 < 4294967295 → y = x + 2) ∧ (v = 0xFFFFFFFD → x = 0xFD ∧ y = 0x00) ∧
        (v = 0xFFFFFFFE → x = 0xFE ∧ y = 0x01)) ∧
  (∀ (b b' : Word) (s : Counter) (k j : Nat), b.setWidth 8 = b'.setWidth 8 → s.val + 2 * (k + j) < 4294967295 →
    (usedSalt .lowByte b s k = usedSalt .lowByte b' s (k + j) ↔ 128 ∣ j)) ∧
  (∀ (b : Word) (s : Counter) (k : Nat), s.val + 2 * k < 4294967295 →
    ∃ x : Byte, (usedSalt .lowByte b s k).1[7]? = some x ∧ x.toNat % 2 = s.val % 2) ∧
  (∀ (b : Word) (s : Counter) (j k : Nat),
    usedSalt .full b s j = usedSalt .full b s k ↔ j % 4294967295 = k % 4294967295)

/-- R79: `ENCPREP` equals its parts: `KSPLIT`, `NEXT`, `FRAME` of the drawn value, `NEXT`, `IVXOR`, `PAD 8` give the same
fields and the same final `SALT`; with another requester's draw between the two `NEXT` the fields are the same, but that
requester draws another value than it would after the `ENCPREP`, and `SALT` ends one further. -/
def Obligations.EncprepEqualsItsParts : Prop :=
  ∀ (lkey : Bytes 16) (boots time : Word) (data : List Byte) (s : State), data.length ≤ s.cfg.maxLen.val →
    ∃ (loc : Word) (ck pv salt iv : Bytes 8) (rn rp : List Byte) (t u : State),
      after 6 { s with port := [encode (.ksplit lkey), encode .next, encode (.frame boots loc), encode .next,
        encode (.ivxor salt pv), encode (.pad 8 data)] } = some t ∧
      t.responses = s.responses ++ [0x00 :: (ck.1 ++ pv.1), 0x00 :: be32 loc, 0x00 :: salt.1, rn, 0x00 :: iv.1,
        0x00 :: rp] ∧
      exec (.encprep lkey boots time data) s = .next u ∧
      u.responses = s.responses ++ [0x00 :: (ck.1 ++ iv.1 ++ salt.1 ++ rp)] ∧ u.salt = t.salt ∧ u.cfg = t.cfg ∧
      ∃ (v : State) (other rn' late : Packet),
        after 7 { s with port := [encode (.ksplit lkey), encode .next, encode (.frame boots loc), encode .next,
          encode .next, encode (.ivxor salt pv), encode (.pad 8 data)] } = some v ∧
        v.responses = s.responses ++ [0x00 :: (ck.1 ++ pv.1), 0x00 :: be32 loc, 0x00 :: salt.1, other, rn',
          0x00 :: iv.1, 0x00 :: rp] ∧ v.salt = succ u.salt ∧
        answers 1 { u with port := [encode .next] } = some [late] ∧ other ≠ late

/-! ### Independence -/

/-- R34: a command that neither reads nor writes `SALT` gives the same response wherever it stands and leaves every other
response unchanged; `NEXT` and `ENCPREP` do not commute. -/
def Obligations.PureCommandsCommute : Prop :=
  (∀ (s : State) (p q : Packet) (i : Instr), decode p = .ok i → isPure i = true →
    ∃ (t u : State) (rp rq : Packet), after 2 { s with port := [p, q] } = some t ∧
      after 2 { s with port := [q, p] } = some u ∧ t.salt = u.salt ∧ t.cfg = u.cfg ∧
      t.responses = s.responses ++ [rp, rq] ∧ u.responses = s.responses ++ [rq, rp]) ∧
  (∀ (s : State) (c : EncprepOperands), c.data.length ≤ s.cfg.maxLen.val →
    ∃ (rn re rn' re' : Packet), answers 2 { s with port := [encode .next, encode c.command] } = some [rn, re] ∧
      answers 2 { s with port := [encode c.command, encode .next] } = some [re', rn'] ∧ rn ≠ rn')

/-- A pure command answers the same whatever `SALT`, the port and the earlier responses are: no hidden state
(spec/10_state.md R18, spec/20_memory.md R24, spec/45_privacy_engine.md R81). -/
def Obligations.PureAnswersHaveNoHiddenState : Prop :=
  ∀ (i : Instr) (s s' : State), isPure i = true → s.cfg = s'.cfg → ∃ r : Packet,
    exec i s = .next { s with responses := s.responses ++ [r] } ∧
    exec i s' = .next { s' with responses := s'.responses ++ [r] }

/-- R89: the unused operands: packets that differ only in `engine_time`, or for `DECPREP` in `engine_boots` and
`engine_time`, have the same response and the same effect. -/
def Obligations.UnusedOperandsHaveNoEffect : Prop :=
  (∀ (s : State) (rest : List Packet) (lkey : Bytes 16) (b t t' : Word) (d : List Byte),
    step { s with port := encode (.encprep lkey b t d) :: rest } =
      step { s with port := encode (.encprep lkey b t' d) :: rest }) ∧
  (∀ (s : State) (rest : List Packet) (lkey : Bytes 16) (b b' t t' : Word) (salt : Bytes 8) (len : Word),
    step { s with port := encode (.decprep lkey b t salt len) :: rest } =
      step { s with port := encode (.decprep lkey b' t' salt len) :: rest })

/-- R115: the mask affects only what `FRAME` and `ENCPREP` produce: a command of any other kind has the same response and
the same effect on `SALT` under either mask. -/
def Obligations.MaskOnlyAffectsFraming : Prop :=
  ∀ (i : Instr) (s : State) (m : FieldMask), i.opcode ≠ 0x04 → i.opcode ≠ 0x06 →
    ∃ (c : Counter) (r : Packet),
      exec i s = .next { s with salt := c, responses := s.responses ++ [r] } ∧
      exec i { s with cfg := { s.cfg with fieldMask := m } } =
        .next { s with cfg := { s.cfg with fieldMask := m }, salt := c, responses := s.responses ++ [r] }

/-- The receiver recovers the sender's key and IV: `DECPREP` with the localized key and the salt of an `ENCPREP` answers
that `ENCPREP`'s cipher key and IV, in any state, under any parameters, with any engine boots and time
(spec/45_privacy_engine.md R81, R86, spec/95_test_vectors.md S5). -/
def Obligations.ReceiverRecoversKeyAndIv : Prop :=
  ∀ (lkey : Bytes 16) (boots boots' time time' : Word) (data : List Byte) (len : Word) (ck iv salt : Bytes 8)
    (out : List Byte) (s t s' : State), data.length ≤ s.cfg.maxLen.val →
    exec (.encprep lkey boots time data) s = .next t →
    t.responses = s.responses ++ [0x00 :: (ck.1 ++ iv.1 ++ salt.1 ++ out)] →
    len.toNat ≤ s'.cfg.maxLen.val → len.toNat % 8 = 0 →
    exec (.decprep lkey boots' time' salt len) s' =
      .next { s' with responses := s'.responses ++ [0x00 :: (ck.1 ++ iv.1)] }

/-! ### Reset -/

/-- R105 and R19: reset loads the seed, which is in [1, 0xFFFFFFFE], into `SALT` and leaves nothing else; the first draw
returns the seed itself. -/
def Obligations.ResetLoadsSeed : Prop :=
  ∀ (cfg : Config) (seed : Seed),
    (State.resetWith cfg seed).salt.val = seed.1 ∧ 1 ≤ seed.1 ∧ seed.1 ≤ 0xFFFFFFFE ∧
    (State.resetWith cfg seed).port = [] ∧ (State.resetWith cfg seed).responses = [] ∧
    (State.resetWith cfg seed).cfg = cfg ∧
    answers 1 ((State.resetWith cfg seed).present [[0x02]]) = some [0x00 :: be32 (BitVec.ofNat 32 seed.1)]

/-! ### Composition with the external collaborators -/

/-- R86: round trip under CBC-LEN and CBC-INV: where no external call fails and the ciphertext is not above the receiver's
`MAX_LEN`, `decrypt` gives back the plaintext padded to 8, with any engine boots and time, and the plaintext itself where
its length is a multiple of 8. The length hypothesis is log entry 11. -/
def Obligations.EncryptDecryptRoundTrip : Prop :=
  ∀ (Key EngineId : Type) (x : Collaborators Key EngineId) (key : Key) (eid : EngineId)
    (boots boots' time time' : Word) (p ct : List Byte) (salt : Bytes 8) (s t s' : State),
    x.CbcLen → x.CbcInv → encrypt x key eid boots time p s = (.ok (ct, salt), t) →
    ct.length ≤ s'.cfg.maxLen.val → (decrypt x key eid boots' time' salt ct s').1 ≠ .error .cipher →
    (decrypt x key eid boots' time' salt ct s').1 = .ok (pad p 8) ∧
      (p.length % 8 = 0 → (decrypt x key eid boots' time' salt ct s').1 = .ok p) ∧
      (decrypt x key eid boots' time' salt ct s').2.salt = s'.salt

/-- R87: two encryptions of the same plaintext with no draw between them differ in their salts, whatever the cipher; under
CBC-IVSENS their ciphertexts differ where the plaintext is not empty, and under CBC-LEN the empty plaintext gives two
empty ciphertexts. -/
def Obligations.ConsecutiveEncryptionsDiffer : Prop :=
  ∀ (Key EngineId : Type) (x : Collaborators Key EngineId) (key : Key) (eid : EngineId) (boots time time' : Word)
    (p ct ct' : List Byte) (salt salt' : Bytes 8) (s t t' u : State),
    encrypt x key eid boots time p s = (.ok (ct, salt), t) → t'.salt = t.salt → t'.cfg = t.cfg →
    encrypt x key eid boots time' p t' = (.ok (ct', salt'), u) →
    salt ≠ salt' ∧ (x.CbcIvSens → p ≠ [] → ct ≠ ct') ∧ (x.CbcLen → p = [] → ct = [] ∧ ct' = [])

/-- R88: a failed localisation leaves `SALT` as it was; a cipher failure in `encrypt` leaves it advanced by two; `decrypt`
never changes it, whatever happens. The state before the call is the one in which the block
takes the host's packet, before any that wait (the model's choice, log entry 18). -/
def Obligations.CollaboratorFailuresAndSalt : Prop :=
  ∀ (Key EngineId : Type) (x : Collaborators Key EngineId) (key : Key) (eid : EngineId) (boots time : Word)
    (p : List Byte) (salt : Bytes 8) (s : State),
    (x.localize key eid = none →
      encrypt x key eid boots time p s = (.error .keyDerivation, s) ∧
      decrypt x key eid boots time salt p s = (.error .keyDerivation, s)) ∧
    ((encrypt x key eid boots time p s).1 = .error .cipher →
      (encrypt x key eid boots time p s).2.salt.val = (s.salt.val + 2) % 4294967295) ∧
    (decrypt x key eid boots time salt p s).2.salt = s.salt

/-- A ciphertext whose length is no multiple of 8 (and not above `MAX_LEN`) fails with the format error, and the cipher is
not invoked: the outcome is the same for any cipher (spec/45_privacy_engine.md R80, R85, spec/95_test_vectors.md S6). -/
def Obligations.MisalignedDecryptNeverCallsCipher : Prop :=
  ∀ (Key EngineId : Type) (x : Collaborators Key EngineId) (key : Key) (eid : EngineId) (boots time : Word)
    (ct : List Byte) (salt : Bytes 8) (s : State), x.localize key eid ≠ none →
    ct.length % 8 ≠ 0 → ct.length ≤ s.cfg.maxLen.val →
    (decrypt x key eid boots time salt ct s).1 = .error .format ∧
    ∀ dec : Bytes 8 → Bytes 8 → List Byte → Option (List Byte),
      decrypt { x with cbcDec := dec } key eid boots time salt ct s = decrypt x key eid boots time salt ct s

/-- The two admissible orders of `decrypt`'s length check agree whenever localisation does not fail (and the ciphertext is
not above `MAX_LEN`, where the block's own check comes first) (spec/45_privacy_engine.md R85, log entries 11 and 16). -/
def Obligations.DecryptCheckOrdersAgree : Prop :=
  ∀ (Key EngineId : Type) (x : Collaborators Key EngineId) (key : Key) (eid : EngineId) (boots time : Word)
    (ct : List Byte) (salt : Bytes 8) (s : State), x.localize key eid ≠ none → ct.length ≤ s.cfg.maxLen.val →
    (decryptCheckFirst x key eid boots time salt ct s).1 = (decrypt x key eid boots time salt ct s).1 ∧
    (decryptCheckFirst x key eid boots time salt ct s).2.salt = (decrypt x key eid boots time salt ct s).2.salt
end

