-- ==== Sys2Proof/Laws/Bytes.lean ====
section
/-! SUPPORT. Lemmas about byte order and about cutting a packet into its fields. -/

namespace Sys2Proof

/-- The value of four bytes, most significant first, as a sum. -/
theorem ofBe32_toNat (a b c d : Byte) :
    (ofBe32 a b c d).toNat = a.toNat * 2 ^ 24 + b.toNat * 2 ^ 16 + c.toNat * 2 ^ 8 + d.toNat := by
  have hb := b.isLt
  have hc := c.isLt
  have hd := d.isLt
  unfold ofBe32
  rw [BitVec.toNat_append, BitVec.toNat_append, BitVec.toNat_append,
    ← Nat.shiftLeft_add_eq_or_of_lt (by omega), ← Nat.shiftLeft_add_eq_or_of_lt (by omega),
    ← Nat.shiftLeft_add_eq_or_of_lt (by omega)]
  simp only [Nat.shiftLeft_eq]
  omega

/-- The value of each byte of a 32-bit field, most significant first. -/
theorem be32_eq (v : Word) :
    be32 v = [BitVec.ofNat 8 (v.toNat / 2 ^ 24), BitVec.ofNat 8 (v.toNat / 2 ^ 16), BitVec.ofNat 8 (v.toNat / 2 ^ 8),
      BitVec.ofNat 8 v.toNat] := by
  simp only [be32, BitVec.extractLsb', Nat.shiftRight_eq_div_pow, pow_zero, Nat.div_one]

@[simp] theorem be32_length (v : Word) : (be32 v).length = 4 := rfl

/-- The bytes of a 32-bit field make the field's value again. -/
theorem ofBe32_of_be32 (v : Word) :
    ofBe32 (BitVec.ofNat 8 (v.toNat / 2 ^ 24)) (BitVec.ofNat 8 (v.toNat / 2 ^ 16)) (BitVec.ofNat 8 (v.toNat / 2 ^ 8))
      (BitVec.ofNat 8 v.toNat) = v := by
  have hv := v.isLt
  apply BitVec.eq_of_toNat_eq
  rw [ofBe32_toNat]
  simp only [BitVec.toNat_ofNat]
  omega

/-- Four bytes are the field of the value they make. -/
@[simp] theorem be32_ofBe32 (a b c d : Byte) : be32 (ofBe32 a b c d) = [a, b, c, d] := by
  have ha := a.isLt
  have hb := b.isLt
  have hc := c.isLt
  have hd := d.isLt
  rw [be32_eq, ofBe32_toNat]
  congr 1
  · apply BitVec.eq_of_toNat_eq; simp only [BitVec.toNat_ofNat]; omega
  congr 1
  · apply BitVec.eq_of_toNat_eq; simp only [BitVec.toNat_ofNat]; omega
  congr 1
  · apply BitVec.eq_of_toNat_eq; simp only [BitVec.toNat_ofNat]; omega
  congr 1
  apply BitVec.eq_of_toNat_eq; simp only [BitVec.toNat_ofNat]; omega

/-- Reading a 32-bit field back gives its value and what follows it. -/
theorem cutWord_be32_append (v : Word) (rest : List Byte) : cutWord (be32 v ++ rest) = some (v, rest) := by
  rw [be32_eq]
  simp only [List.cons_append, List.nil_append, cutWord, ofBe32_of_be32]

/-- The same where the field ends the packet. -/
theorem cutWord_be32 (v : Word) : cutWord (be32 v) = some (v, []) := by
  simpa using cutWord_be32_append v []

/-- Different values have different fields. -/
theorem be32_injective : Function.Injective be32 := fun v w h => by
  have hv := cutWord_be32 v
  rw [h, cutWord_be32] at hv
  simp only [Option.some.injEq, Prod.mk.injEq, and_true] at hv
  exact hv.symm

/-- A field that can be read stands at the front of the packet. -/
theorem eq_of_cutWord {l rest : List Byte} {v : Word} (h : cutWord l = some (v, rest)) : l = be32 v ++ rest := by
  match l, h with
  | a :: b :: c :: d :: r, h =>
    simp only [cutWord, Option.some.injEq, Prod.mk.injEq] at h
    rw [← h.1, ← h.2, be32_ofBe32]
    rfl

/-- A field cannot be read exactly where fewer than 4 bytes are left. -/
theorem cutWord_eq_none {l : List Byte} : cutWord l = none ↔ l.length < 4 := by
  match l with
  | [] => simp [cutWord]
  | [_] => simp [cutWord]
  | [_, _] => simp [cutWord]
  | [_, _, _] => simp [cutWord]
  | _ :: _ :: _ :: _ :: _ => simp [cutWord]

/-- Reading a byte sequence back gives it and what follows it. -/
theorem cut_append {n : Nat} (b : Bytes n) (rest : List Byte) : cut n (b.1 ++ rest) = some (b, rest) := by
  obtain ⟨l, rfl⟩ := b
  simp [cut]

/-- The same where the byte sequence ends the packet. -/
theorem cut_self {n : Nat} (b : Bytes n) : cut n b.1 = some (b, []) := by
  simpa using cut_append b []

/-- A byte sequence that can be read stands at the front of the packet. -/
theorem eq_of_cut {n : Nat} {l rest : List Byte} {b : Bytes n} (h : cut n l = some (b, rest)) : l = b.1 ++ rest := by
  unfold cut at h
  split at h
  · simp only [Option.some.injEq, Prod.mk.injEq] at h
    rw [← h.1, ← h.2, List.take_append_drop]
  · cases h

/-- A byte sequence cannot be read exactly where fewer bytes are left. -/
theorem cut_eq_none {n : Nat} {l : List Byte} : cut n l = none ↔ l.length < n := by
  unfold cut
  split <;> simp <;> omega

end Sys2Proof
end

