-- ==== Sys2Proof/Laws/Decode.lean ====
section
/-! SUPPORT. What each part of the decoder can answer: one lemma per function, to be cited instead of unfolding it. -/

namespace Sys2Proof

/-- A format without payload ends the packet. -/
theorem finish_eq_ok {i j : Instr} {l : List Byte} : finish i l = .ok j ↔ i = j ∧ l = [] := by
  cases l <;> simp [finish]

/-- A format with payload has exactly `len` bytes of it. -/
theorem finishData_eq_ok {i j : Instr} {len : Word} {data : List Byte} :
    finishData len data i = .ok j ↔ i = j ∧ data.length = len.toNat := by
  unfold finishData
  split <;> simp_all

/-- The operand check of R45(c) and (d) passes exactly where the command is well-formed. -/
theorem illegalOperand_eq_none {cfg : Config} {i : Instr} :
    illegalOperand cfg i = none ↔ i.wellFormed cfg = true := by
  cases i with
  | pad bs data =>
    simp only [illegalOperand, tooLong, Instr.wellFormed]
    split
    · simp_all
    · split <;> simp_all
  | next => simp [illegalOperand, Instr.wellFormed]
  | ksplit => simp [illegalOperand, Instr.wellFormed]
  | frame => simp [illegalOperand, Instr.wellFormed]
  | ivxor => simp [illegalOperand, Instr.wellFormed]
  | encprep => simp [illegalOperand, tooLong, Instr.wellFormed]
  | decprep => simp [illegalOperand, tooLong, Instr.wellFormed]

/-- A packet that is a legal command: it decodes, and its operands are well-formed. -/
theorem decodeCommand_eq_ok {cfg : Config} {p : Packet} {i : Instr} :
    decodeCommand cfg p = .ok i ↔ decode p = .ok i ∧ i.wellFormed cfg = true := by
  unfold decodeCommand
  cases h : decode p with
  | error e => simp
  | ok j =>
    cases hj : illegalOperand cfg j with
    | some e =>
      have hw : ¬ j.wellFormed cfg = true := fun hw => by simp [illegalOperand_eq_none.2 hw] at hj
      refine ⟨fun hc => ?_, fun ⟨hc, hi⟩ => ?_⟩
      · simp [hj] at hc
      · cases hc
        exact absurd hi hw
    | none =>
      refine ⟨fun hc => ?_, fun ⟨hc, _⟩ => ?_⟩
      · simp only [hj] at hc
        cases hc
        exact ⟨rfl, illegalOperand_eq_none.1 hj⟩
      · cases hc
        simp only [hj]

end Sys2Proof
end

