-- ==== Sys2Proof/Laws/State.lean ====
section
/-! SUPPORT. One lemma per field per operation on the state, true by unfolding, so that no later proof unfolds a record
update. -/

namespace Sys2Proof.Machine

@[simp] theorem draw_fst (s : State) : (draw s).1 = s.salt := rfl
@[simp] theorem draw_salt (s : State) : (draw s).2.salt = succ s.salt := rfl
@[simp] theorem draw_cfg (s : State) : (draw s).2.cfg = s.cfg := rfl
@[simp] theorem draw_port (s : State) : (draw s).2.port = s.port := rfl
@[simp] theorem draw_responses (s : State) : (draw s).2.responses = s.responses := rfl

@[simp] theorem respond_salt (r : Response) (s : State) : (respond r s).salt = s.salt := rfl
@[simp] theorem respond_cfg (r : Response) (s : State) : (respond r s).cfg = s.cfg := rfl
@[simp] theorem respond_port (r : Response) (s : State) : (respond r s).port = s.port := rfl
@[simp] theorem respond_responses (r : Response) (s : State) :
    (respond r s).responses = s.responses ++ [r.encode] := rfl

@[simp] theorem raise_salt (e : ErrorKind) (s : State) : (raise e s).salt = s.salt := rfl
@[simp] theorem raise_cfg (e : ErrorKind) (s : State) : (raise e s).cfg = s.cfg := rfl
@[simp] theorem raise_port (e : ErrorKind) (s : State) : (raise e s).port = s.port := rfl
@[simp] theorem raise_responses (e : ErrorKind) (s : State) :
    (raise e s).responses = s.responses ++ [[e.code]] := rfl

@[simp] theorem placePacket_salt (p : Packet) (s : State) : (placePacket p s).salt = s.salt := rfl
@[simp] theorem placePacket_cfg (p : Packet) (s : State) : (placePacket p s).cfg = s.cfg := rfl
@[simp] theorem placePacket_port (p : Packet) (s : State) : (placePacket p s).port = p :: s.port := rfl
@[simp] theorem placePacket_responses (p : Packet) (s : State) : (placePacket p s).responses = s.responses := rfl

@[simp] theorem present_salt (ps : List Packet) (s : State) : (s.present ps).salt = s.salt := rfl
@[simp] theorem present_cfg (ps : List Packet) (s : State) : (s.present ps).cfg = s.cfg := rfl
@[simp] theorem present_port (ps : List Packet) (s : State) : (s.present ps).port = s.port ++ ps := rfl
@[simp] theorem present_responses (ps : List Packet) (s : State) : (s.present ps).responses = s.responses := rfl

@[simp] theorem resetWith_salt_val (cfg : Config) (seed : Seed) : (State.resetWith cfg seed).salt.val = seed.1 := rfl
@[simp] theorem resetWith_cfg (cfg : Config) (seed : Seed) : (State.resetWith cfg seed).cfg = cfg := rfl
@[simp] theorem resetWith_port (cfg : Config) (seed : Seed) : (State.resetWith cfg seed).port = [] := rfl
@[simp] theorem resetWith_responses (cfg : Config) (seed : Seed) : (State.resetWith cfg seed).responses = [] := rfl

end Sys2Proof.Machine
end

