-- ==== Sys2Proof/Laws/Ops.lean ====
section
/-! SUPPORT. What the shared operations can do, said once: the successor, the pure functions' lengths, the choice of an
error, and the outcome of a meaning, of a packet and of a step. -/

namespace Sys2Proof.Machine

/-- A counter value is below 0xFFFFFFFF. -/
theorem counter_lt (c : Counter) : c.val < 4294967295 := c.isLt

/-- The successor is the increment modulo 0xFFFFFFFF. -/
theorem succ_val (c : Counter) : (succ c).val = (c.val + 1) % 4294967295 := by
  have h := counter_lt c
  unfold succ
  simp only [ctrWrap]
  split <;> simp only <;> omega

@[simp] theorem zeros_length (n : Nat) : (zeros n).length = n := by simp [zeros]

/-- Padding appends as many zero bytes as the length lacks. -/
theorem pad_eq (d : List Byte) {bs : Nat} (h : 1 ≤ bs) :
    pad d bs = d ++ zeros ((bs - d.length % bs) % bs) := by
  unfold pad
  have hlt : d.length % bs < bs := Nat.mod_lt _ (by omega)
  by_cases hr : d.length % bs = 0
  · simp [hr, zeros]
  · simp only [hr, if_false]
    rw [Nat.mod_eq_of_lt (a := bs - d.length % bs) (by omega)]

/-- The status of a command is an error exactly where an operand is illegal or the format check fails, in this order. -/
theorem errorOf_cases (cfg : Config) (i : Instr) :
    (i.wellFormed cfg = false ∧ errorOf cfg i = some .illegalCmd) ∨
    (i.wellFormed cfg = true ∧ formatViolated i = true ∧ errorOf cfg i = some .formatError) ∨
    (i.wellFormed cfg = true ∧ formatViolated i = false ∧ errorOf cfg i = none) := by
  unfold errorOf
  cases h : illegalOperand cfg i with
  | some e =>
    left
    refine ⟨?_, rfl⟩
    cases hw : i.wellFormed cfg with
    | false => rfl
    | true => rw [illegalOperand_eq_none.2 hw] at h; cases h
  | none =>
    right
    have hw := illegalOperand_eq_none.1 h
    cases hf : formatViolated i <;> simp [hw]

/-- `complete` answers a next state always: the error that `errorOf` chooses, or the effect. -/
theorem complete_cases (i : Instr) (s : State) (body : State → State) :
    (∃ e, errorOf s.cfg i = some e ∧ complete i s body = .next (raise e s)) ∨
    (errorOf s.cfg i = none ∧ complete i s body = .next (body s)) := by
  unfold complete
  cases h : errorOf s.cfg i with
  | some e => exact .inl ⟨e, rfl, rfl⟩
  | none => exact .inr ⟨rfl, rfl⟩

/-- The only effects a command can have: it answers one response, and `SALT` moves by the draws of the command. -/
theorem exec_cases (i : Instr) (s : State) :
    ∃ (c : Counter) (r : Response), exec i s = .next { s with salt := c, responses := s.responses ++ [r.encode] } ∧
      (c = s.salt ∨ (i = .next ∧ c = succ s.salt) ∨
        (∃ k b t d, i = .encprep k b t d ∧ i.wellFormed s.cfg = true ∧ c = succ (succ s.salt))) := by
  cases i with
  | pad bs data =>
    rcases complete_cases (.pad bs data) s fun t => respond (.padded (pad data bs.toNat)) t with ⟨e, -, h⟩ | ⟨-, h⟩
    · exact ⟨s.salt, .failed e, h, .inl rfl⟩
    · exact ⟨s.salt, _, h, .inl rfl⟩
  | next => exact ⟨succ s.salt, _, rfl, .inr (.inl ⟨rfl, rfl⟩)⟩
  | ksplit k => exact ⟨s.salt, _, rfl, .inl rfl⟩
  | frame b l => exact ⟨s.salt, _, rfl, .inl rfl⟩
  | ivxor a p => exact ⟨s.salt, _, rfl, .inl rfl⟩
  | encprep k b t d =>
    rcases complete_cases (.encprep k b t d) s fun u => encprepEffect k b d u with ⟨e, -, h⟩ | ⟨hn, h⟩
    · exact ⟨s.salt, .failed e, h, .inl rfl⟩
    · refine ⟨succ (succ s.salt), _, h, .inr (.inr ⟨k, b, t, d, rfl, ?_, rfl⟩)⟩
      rcases errorOf_cases s.cfg (.encprep k b t d) with ⟨-, he⟩ | ⟨-, -, he⟩ | ⟨hw, -, -⟩
      · rw [he] at hn; cases hn
      · rw [he] at hn; cases hn
      · exact hw
  | decprep k b t a l =>
    rcases complete_cases (.decprep k b t a l) s
      (fun u => respond (.decPrepared (ksplit k).1 (xor8 a (ksplit k).2)) u) with ⟨e, -, h⟩ | ⟨-, h⟩
    · exact ⟨s.salt, .failed e, h, .inl rfl⟩
    · exact ⟨s.salt, _, h, .inl rfl⟩

/-- A step with a packet at the port executes that packet. -/
theorem step_of_port {s : State} {p : Packet} {rest : List Packet} (h : s.port = p :: rest) :
    step s = execPacket p { s with port := rest } := by
  simp only [step, takePacket, h]

/-- A packet that does not decode is an illegal command. -/
theorem execPacket_of_error {p : Packet} {e : Illegal} (h : decode p = .error e) (s : State) :
    execPacket p s = .next (raise .illegalCmd s) := by
  simp only [execPacket, h]

/-- A packet that decodes is the command it decodes to. -/
theorem execPacket_of_ok {p : Packet} {i : Instr} (h : decode p = .ok i) (s : State) :
    execPacket p s = exec i s := by
  simp only [execPacket, h]

end Sys2Proof.Machine
end

