-- ==== Sys2Proof/Laws/Answer.lean ====
section
/-! SUPPORT. Every command's outcome as two functions of the parameters and the counter alone: the response and the
counter afterwards. Proofs about runs cite `exec_eq` and `step_eq` instead of unfolding the meanings. -/

namespace Sys2Proof.Machine

/-- The response of a command whose status is `OK`. -/
def okAnswer (cfg : Config) (c : Counter) : Instr → Response
  | .pad bs data => .padded (pad data bs.toNat)
  | .next => .drawn (counterWord c)
  | .ksplit k => .split (ksplit k).1 (ksplit k).2
  | .frame b l => .framed (frame cfg.fieldMask b l)
  | .ivxor a p => .combined (xor8 a p)
  | .encprep k b _ d =>
    .encPrepared (ksplit k).1 (xor8 (frame cfg.fieldMask b (counterWord c)) (ksplit k).2)
      (frame cfg.fieldMask b (counterWord c)) (pad d blockSize)
  | .decprep k _ _ a _ => .decPrepared (ksplit k).1 (xor8 a (ksplit k).2)

/-- The counter after a command whose status is `OK`. -/
def okSalt (c : Counter) : Instr → Counter
  | .pad _ _ => c
  | .next => succ c
  | .ksplit _ => c
  | .frame _ _ => c
  | .ivxor _ _ => c
  | .encprep _ _ _ _ => succ (succ c)
  | .decprep _ _ _ _ _ => c

/-- The response of a command. -/
def answerOf (cfg : Config) (c : Counter) (i : Instr) : Response :=
  match errorOf cfg i with
  | some e => .failed e
  | none => okAnswer cfg c i

/-- The counter after a command. -/
def saltAfter (cfg : Config) (c : Counter) (i : Instr) : Counter :=
  match errorOf cfg i with
  | some _ => c
  | none => okSalt c i

/-- The outcome of every command: one response and the counter; the parameters and the port stay as they are. -/
theorem exec_eq (i : Instr) (s : State) :
    exec i s = .next { s with salt := saltAfter s.cfg s.salt i,
                              responses := s.responses ++ [(answerOf s.cfg s.salt i).encode] } := by
  unfold answerOf saltAfter
  cases i with
  | pad bs d => simp only [exec, execPad, complete]; cases errorOf s.cfg (.pad bs d) <;> rfl
  | next => rfl
  | ksplit k => rfl
  | frame b l => rfl
  | ivxor a p => rfl
  | encprep k b t d => simp only [exec, execEncprep, complete]; cases errorOf s.cfg (.encprep k b t d) <;> rfl
  | decprep k b t a l => simp only [exec, execDecprep, complete]; cases errorOf s.cfg (.decprep k b t a l) <;> rfl

/-- The response packet of a packet. -/
def packetAnswer (cfg : Config) (c : Counter) (p : Packet) : Packet :=
  match decode p with
  | .error _ => [ErrorKind.illegalCmd.code]
  | .ok i => (answerOf cfg c i).encode

/-- The counter after a packet. -/
def packetSalt (cfg : Config) (c : Counter) (p : Packet) : Counter :=
  match decode p with
  | .error _ => c
  | .ok i => saltAfter cfg c i

/-- The outcome of a step with a packet at the port: it is taken, answered once, and the counter moves. -/
theorem step_eq {s : State} {p : Packet} {rest : List Packet} (h : s.port = p :: rest) :
    step s = .next { s with port := rest, salt := packetSalt s.cfg s.salt p,
                            responses := s.responses ++ [packetAnswer s.cfg s.salt p] } := by
  rw [step_of_port h]
  unfold packetAnswer packetSalt execPacket
  cases decode p with
  | error e => rfl
  | ok i => simp only [exec_eq]

end Sys2Proof.Machine
end

