-- ==== Sys2Proof/Laws/Asm.lean ====
section
/-! SUPPORT. Each operand reader of the assembler reads back what the printer of that operand writes, and leaves the rest
of the line. -/

namespace Sys2Proof.Machine

/-- A printed digit has its value. -/
theorem hexVal_hexDigit : ∀ n < 16, hexVal (hexDigit n) = some n := by decide

/-- A printed digit does not close a byte sequence. -/
theorem hexDigit_ne_quote : ∀ n < 16, hexDigit n ≠ '"' := by decide

/-- Hexadecimal digits up to the closing quotation mark. -/
theorem readHexPairs_hexOfBytes (l : List Byte) (rest) :
    readHexPairs (hexOfBytes l ++ '"' :: rest) = some (l, rest) := by
  induction l with
  | nil =>
    cases rest <;> simp [hexOfBytes, readHexPairs]
  | cons b l ih =>
    have h1 : b.toNat / 16 < 16 := by omega
    have h2 : b.toNat % 16 < 16 := by omega
    have : hexOfBytes (b :: l) ++ '"' :: rest =
        hexDigit (b.toNat / 16) :: hexDigit (b.toNat % 16) :: (hexOfBytes l ++ '"' :: rest) := by
      simp [hexOfBytes, hexOfByte]
    rw [this]
    rw [readHexPairs]
    rw [if_neg (hexDigit_ne_quote _ h1), hexVal_hexDigit _ h1, hexVal_hexDigit _ h2, ih]
    simp only [Option.some.injEq, Prod.mk.injEq, List.cons.injEq, and_true]
    apply BitVec.eq_of_toNat_eq
    simp; omega

/-- A byte-sequence operand. -/
theorem readBytes_asmBytes (l : List Byte) (rest) : readBytes (asmBytes l ++ rest) = some (l, rest) := by
  have := readHexPairs_hexOfBytes l rest
  simp only [asmBytes, readBytes, List.cons_append, List.append_assoc, List.nil_append]
  exact this

/-- Two digits of a number. -/
theorem readDigits_hexOfByte (b : Byte) (acc rest) :
    readDigits hexVal 16 acc (hexOfByte b ++ rest) = readDigits hexVal 16 (256 * acc + b.toNat) rest := by
  have h1 : b.toNat / 16 < 16 := by omega
  have h2 : b.toNat % 16 < 16 := by omega
  simp only [hexOfByte, List.cons_append, List.nil_append, readDigits]
  rw [hexVal_hexDigit _ h1]; simp only; rw [hexVal_hexDigit _ h2]; simp only
  congr 1; omega

/-- The rest of a line does not go on with a digit. -/
def EndsNumber (rest : List Char) : Prop := ∀ c ∈ rest.head?, hexVal c = none

/-- A number ends before anything that is no digit. -/
theorem readDigits_end (acc rest) (h : EndsNumber rest) : readDigits hexVal 16 acc rest = (acc, rest) := by
  cases rest with
  | nil => rfl
  | cons c r => have := h c rfl; simp [readDigits, this]

/-- A number that begins with a printed byte. -/
theorem readNumber_hexOfByte (b : Byte) (rest) :
    readNumber hexVal 16 (hexOfByte b ++ rest) = some (readDigits hexVal 16 0 (hexOfByte b ++ rest)) := by
  have h1 : b.toNat / 16 < 16 := by omega
  simp only [hexOfByte, List.cons_append, readNumber, readDigits]
  rw [hexVal_hexDigit _ h1]; simp

/-- An 8-bit operand. -/
theorem readBits_asmByte (b : Byte) (rest) (h : EndsNumber rest) :
    readBits 8 (asmByte b ++ rest) = some (b, rest) := by
  simp only [asmByte, List.cons_append, readBits, readInt]
  rw [readNumber_hexOfByte, readDigits_hexOfByte, readDigits_end _ _ h]
  simp; omega

/-- A 32-bit operand. -/
theorem readBits_asmWord (b : Word) (rest) (h : EndsNumber rest) :
    readBits 32 (asmWord b ++ rest) = some (b, rest) := by
  simp only [asmWord, List.cons_append, readBits, readInt, hexOfBytes, be32, List.flatMap_cons,
    List.flatMap_nil, List.append_assoc, List.nil_append]
  rw [readNumber_hexOfByte, readDigits_hexOfByte, readDigits_hexOfByte, readDigits_hexOfByte, readDigits_hexOfByte,
    readDigits_end _ _ h]
  have hb : 256 * (256 * (256 * (256 * 0 + (BitVec.extractLsb' 24 8 b).toNat) +
      (BitVec.extractLsb' 16 8 b).toNat) + (BitVec.extractLsb' 8 8 b).toNat) + (BitVec.extractLsb' 0 8 b).toNat = b.toNat := by
    simp only [BitVec.extractLsb'_toNat, Nat.shiftRight_eq_div_pow]
    have := b.isLt
    omega
  rw [hb]
  simp only [b.isLt, if_true, BitVec.ofNat_toNat, BitVec.setWidth_eq]

/-- A byte-sequence operand of fixed length. -/
theorem readBytesOf_asmBytes {n} (l : Bytes n) (rest) : readBytesOf n (asmBytes l.1 ++ rest) = some (l, rest) := by
  simp only [readBytesOf, readBytes_asmBytes]
  simp [l.2]

/-- A line is its mnemonic and, after the space, its operands. -/
theorem assemble_word (m : List Char) (hm : ∀ c ∈ m, c ≠ ' ') (hm0 : m ≠ []) (rest) (hr : skipSpaces rest = rest) :
    assemble (m ++ ' ' :: rest) = readOperands m rest := by
  have h0 : skipSpaces (m ++ ' ' :: rest) = m ++ ' ' :: rest := by
    cases m with
    | nil => exact absurd rfl hm0
    | cons c m => simp [skipSpaces, hm c (by simp)]
  simp only [assemble, h0]
  have h1 : (m ++ ' ' :: rest).takeWhile (· != ' ') = m := by
    rw [List.takeWhile_append_of_pos (by intro c hc; simp [hm c hc])]; simp
  have h2 : (m ++ ' ' :: rest).dropWhile (· != ' ') = ' ' :: rest := by
    rw [List.dropWhile_append_of_pos (by intro c hc; simp [hm c hc])]; simp
  rw [h1, h2]
  congr 1

end Sys2Proof.Machine
end

