-- ==== Sys2Proof/Laws/Operands.lean ====
section
/-! SUPPORT. The pure functions of Machine/Operands.lean in closed form: the length and the bytes of a padded payload, the
bytes of a framed salt under either mask. -/

namespace Sys2Proof.Machine

/-- `MAX_LEN` is at most 0xFFFFFF00. -/
theorem maxLen_le (cfg : Config) : cfg.maxLen.val ≤ 4294967040 := Nat.le_of_lt_succ cfg.maxLen.isLt

/-- The rounded-up length, said with the remainder and with the quotient. -/
theorem roundUp_eq (L bs : Nat) (h : 1 ≤ bs) : L + (bs - L % bs) % bs = bs * ((L + bs - 1) / bs) := by
  have h1 := Nat.div_add_mod L bs
  have hlt : L % bs < bs := Nat.mod_lt _ h
  by_cases hr : L % bs = 0
  · rw [hr, Nat.sub_zero, Nat.mod_self, Nat.add_zero]
    have : (L + bs - 1) / bs = L / bs := by
      rw [show L + bs - 1 = (bs - 1) + bs * (L / bs) by omega, Nat.add_mul_div_left _ _ h,
        Nat.div_eq_of_lt (by omega)]
      omega
    rw [this]; omega
  · rw [Nat.mod_eq_of_lt (a := bs - L % bs) (by omega)]
    have : (L + bs - 1) / bs = L / bs + 1 := by
      rw [show L + bs - 1 = (L % bs - 1) + bs * (L / bs + 1) by rw [Nat.mul_add]; omega, Nat.add_mul_div_left _ _ h,
        Nat.div_eq_of_lt (by omega)]
      omega
    rw [this, Nat.mul_add]; omega

/-- Padding adds less than a block. -/
theorem roundUp_lt (L bs : Nat) (h : 1 ≤ bs) : bs * ((L + bs - 1) / bs) < L + bs := by
  rw [← roundUp_eq _ _ h]
  have : (bs - L % bs) % bs < bs := Nat.mod_lt _ h
  omega

/-- The length of a padded payload. -/
theorem pad_length (d : List Byte) (bs : Nat) (h : 1 ≤ bs) :
    (pad d bs).length = bs * ((d.length + bs - 1) / bs) := by
  rw [pad_eq d h]; simp; exact roundUp_eq _ _ h

/-- The bytes of a padded payload. -/
theorem pad_eq_append (d : List Byte) (bs : Nat) (h : 1 ≤ bs) :
    pad d bs = d ++ List.replicate (bs * ((d.length + bs - 1) / bs) - d.length) 0 := by
  rw [pad_eq d h, ← roundUp_eq _ _ h]; simp [zeros]

/-- A value under the low-byte mask, most significant byte first. -/
theorem be32_and_lowByte (v : Word) : be32 (v &&& 0xFF) = [0,0,0,v.setWidth 8] := by
  have h : (v &&& 0xFF).toNat = v.toNat % 256 := by
    rw [BitVec.toNat_and]
    exact Nat.and_two_pow_sub_one_eq_mod v.toNat 8
  rw [be32_eq, h]
  have h2 : BitVec.ofNat 8 (v.toNat % 256) = v.setWidth 8 := by
    apply BitVec.eq_of_toNat_eq
    simp
  rw [h2]
  have hlt : v.toNat % 256 < 256 := Nat.mod_lt _ (by omega)
  rw [Nat.div_eq_of_lt (by omega), Nat.div_eq_of_lt (by omega), Nat.div_eq_of_lt (by omega)]
  rfl

/-- A value under the full mask. -/
theorem be32_and_full (v : Word) : be32 (v &&& 0xFFFFFFFF) = be32 v := by
  congr 1
  apply BitVec.eq_of_toNat_eq
  rw [BitVec.toNat_and]
  have := Nat.and_two_pow_sub_one_eq_mod v.toNat 32
  have h := v.isLt
  rw [Nat.mod_eq_of_lt h] at this
  exact this

/-- The salt under the mask of this hardware. -/
theorem frame_lowByte (b l : Word) : (frame .lowByte b l).1 = [0,0,0,b.setWidth 8,0,0,0,l.setWidth 8] := by
  simp only [frame]
  rw [show maskWord .lowByte = 0xFF from rfl, be32_and_lowByte, be32_and_lowByte]; rfl

/-- The salt under the other legal mask. -/
theorem frame_full (b l : Word) : (frame .full b l).1 = be32 b ++ be32 l := by
  simp only [frame]
  rw [show maskWord .full = 0xFFFFFFFF from rfl, be32_and_full, be32_and_full]

end Sys2Proof.Machine
end

