-- ==== Sys2Proof/Laws/Composition.lean ====
section
/-! SUPPORT. What the host's one transaction with the block does, and how it reads a response. -/

namespace Sys2Proof.Machine

/-- Presenting a packet always yields its response; the counter moves by the packet, the rest of the state stays. -/
theorem transact_eq (p : Packet) (s : State) : transact p s = some (packetAnswer s.cfg s.salt p,
   { s with salt := packetSalt s.cfg s.salt p, responses := s.responses ++ [packetAnswer s.cfg s.salt p] }) := by
  unfold transact
  rw [step_eq (s := placePacket p s) rfl]
  simp

/-- An error status is read as that error. -/
theorem readStatus_failed (e : ErrorKind) : readStatus [e.code] =
    .error (match e with | .formatError => .format | .illegalCmd => .illegalCommand) := by
  cases e <;> rfl

/-- The result fields of an `ENCPREP` response are read back. -/
theorem readWith_encPrepared (ck iv salt : Bytes 8) (out : List Byte) (h : out.length < 2 ^ 32) :
    readWith cutEncprep (Response.encPrepared ck iv salt out).encode = .ok ⟨ck, iv, salt, out⟩ := by
  simp only [readWith, readStatus, Response.encode, if_true, cutEncprep, List.append_assoc, cut_append, lengthPrefixed,
    cutWord_be32_append, Option.bind_eq_bind, Option.bind_some]
  rw [if_pos (by simp only [BitVec.toNat_ofNat]; rw [Nat.mod_eq_of_lt h])]

/-- The result fields of a `DECPREP` response are read back. -/
theorem readWith_decPrepared (ck iv : Bytes 8) :
    readWith cutDecprep (Response.decPrepared ck iv).encode = .ok ⟨ck, iv⟩ := by
  simp only [readWith, readStatus, Response.encode, if_true, cutDecprep, cut_append, cut_self,
    Option.bind_eq_bind, Option.bind_some]

end Sys2Proof.Machine
end

