-- ==== Sys2Proof/Laws/PerInstr.lean ====
section
/-! SUPPORT. The family EncodeShape: the packet of a command has the length of its format and its opcode first
(spec/30_encoding.md R36 to R38). -/

namespace Sys2Proof.Laws.EncodeShape

/-- The packet of `i` is `packetLength` bytes long and begins with the opcode. -/
def Statement (i : Instr) : Prop :=
  (encode i).length = i.packetLength ∧ (encode i).head? = some i.opcode

theorem pad (bs : Byte) (data : List Byte) : Statement (.pad bs data) :=
  ⟨by simp [encode, Instr.operandBytes, Instr.packetLength]; omega, rfl⟩

theorem next : Statement .next := ⟨rfl, rfl⟩

theorem ksplit (lkey : Bytes 16) : Statement (.ksplit lkey) :=
  ⟨by simp [encode, Instr.operandBytes, Instr.packetLength, lkey.2], rfl⟩

theorem frame (boots loc : Word) : Statement (.frame boots loc) := ⟨rfl, rfl⟩

theorem ivxor (salt preIv : Bytes 8) : Statement (.ivxor salt preIv) :=
  ⟨by simp [encode, Instr.operandBytes, Instr.packetLength, salt.2, preIv.2], rfl⟩

theorem encprep (lkey : Bytes 16) (boots time : Word) (data : List Byte) : Statement (.encprep lkey boots time data) :=
  ⟨by simp [encode, Instr.operandBytes, Instr.packetLength, lkey.2]; omega, rfl⟩

theorem decprep (lkey : Bytes 16) (boots time : Word) (salt : Bytes 8) (len : Word) :
    Statement (.decprep lkey boots time salt len) :=
  ⟨by simp [encode, Instr.operandBytes, Instr.packetLength, lkey.2, salt.2], rfl⟩

end Sys2Proof.Laws.EncodeShape
end

