-- ==== Sys2Proof/Laws/Run.lean ====
section
/-! SUPPORT. A run of any length as one equation: the packets taken, the responses added, the counter at the end. -/

namespace Sys2Proof.Safety

open Sys2Proof.Machine

/-- The responses of a sequence of packets, from a counter value on. -/
def answersFrom (cfg : Config) : Counter → List Packet → List Packet
  | _, [] => []
  | c, p :: ps => packetAnswer cfg c p :: answersFrom cfg (packetSalt cfg c p) ps

/-- The counter after a sequence of packets. -/
def saltFrom (cfg : Config) (c : Counter) (ps : List Packet) : Counter :=
  ps.foldl (packetSalt cfg) c

/-- Steps with an empty port change nothing. -/
theorem after_of_port_nil (n : Nat) (s : State) (h : s.port = []) : after n s = some s := by
  have hs : step s = .next s := by simp [step, takePacket, h]
  induction n with
  | zero => rfl
  | succ n ih => simp only [after, hs, ih]

/-- `n` steps take the first `n` packets of the port and answer each of them once. -/
theorem after_eq (n : Nat) (s : State) :
    after n s = some { s with port := s.port.drop n, salt := saltFrom s.cfg s.salt (s.port.take n),
                              responses := s.responses ++ answersFrom s.cfg s.salt (s.port.take n) } := by
  induction n generalizing s with
  | zero => simp [after, saltFrom, answersFrom]
  | succ n ih =>
    cases hp : s.port with
    | nil =>
      rw [after_of_port_nil _ _ hp]
      cases s; cases hp; simp [saltFrom, answersFrom]
    | cons p rest =>
      simp only [after, step_eq hp, ih]
      simp [saltFrom, answersFrom]

/-- The values that a run draws: those of the first packet, then those of the rest of the run. -/
theorem drawnValues_succ (n : Nat) {s : State} {p : Packet} {rest : List Packet} (h : s.port = p :: rest) :
    drawnValues (n + 1) s = (List.range (drawsOf s.cfg p)).map (drawSeq s) ++
      drawnValues n { s with port := rest, salt := packetSalt s.cfg s.salt p,
                             responses := s.responses ++ [packetAnswer s.cfg s.salt p] } := by
  simp only [drawnValues, step_eq h, drawnBy, h]

end Sys2Proof.Safety
end

