-- ==== Sys2Proof/Tests/Slice0.lean ====
section
/-! SUPPORT. The model's own tests: decoded packets and single steps against spec/95_test_vectors.md, an ill-formed term
for each check of WellFormed, and for each statement with hypotheses a witness that meets them. -/

namespace Sys2Proof.Tests

open Sys2Proof.Machine Sys2Proof.Safety

/-- The localized key of spec/95_test_vectors.md. -/
def k0 : Bytes 16 :=
  ⟨[0, 1, 2, 3, 4, 5, 6, 7, 8, 9, 10, 11, 12, 13, 14, 15], rfl⟩

/-- `MAX_LEN = 64` and the mask of this hardware: what spec/95_test_vectors.md assumes. -/
def cfg64 : Config := ⟨64, .lowByte⟩

/-- A block with a counter value and packets at its port. -/
def blk (salt : Counter) (ps : List Packet) : State := ⟨salt, cfg64, ps, []⟩

/-- The same with full 32-bit salt fields. -/
def blkFull (salt : Counter) (ps : List Packet) : State := ⟨salt, ⟨64, .full⟩, ps, []⟩

/-- The responses and the counter after one step. -/
def reply (s : State) : Option (List Packet × Nat) :=
  match step s with
  | .next t => some (t.responses, t.salt.val)
  | .fault _ => none
  | .refused _ => none

/-! ### WellFormed: each check refuses an ill-formed term -/

/-- R45(d). -/
theorem test_wellFormed_refuses_zero_block : Instr.wellFormed cfg64 (.pad 0 []) = false := by decide

/-- R45(c), `PAD`, one byte above `MAX_LEN`. -/
theorem test_wellFormed_refuses_long_pad : Instr.wellFormed cfg64 (.pad 8 (zeros 65)) = false := by decide

/-- R45(c), `ENCPREP`. -/
theorem test_wellFormed_refuses_long_encprep : Instr.wellFormed cfg64 (.encprep k0 1 0 (zeros 65)) = false := by decide

/-- R45(c), `DECPREP`. -/
theorem test_wellFormed_refuses_long_decprep :
    Instr.wellFormed cfg64 (.decprep k0 0 0 ⟨zeros 8, rfl⟩ 65) = false := by decide

/-! ### Decoding: packets written out from the formats of R38 -/

/-- T5. -/
theorem test_decode_pad :
    decode [0x01, 0x04, 0x00, 0x00, 0x00, 0x03, 0x61, 0x62, 0x63] = .ok (.pad 4 [0x61, 0x62, 0x63]) := by decide

/-- T11. -/
theorem test_decode_next :
    decode [0x02] = .ok .next := by decide

/-- T19. -/
theorem test_decode_ksplit :
    decode [0x03, 0xff, 0xee, 0xdd, 0xcc, 0xbb, 0xaa, 0x99, 0x88, 0x77, 0x66, 0x55, 0x44, 0x33, 0x22, 0x11,
    0x00] = .ok (.ksplit ⟨[0xff, 0xee, 0xdd, 0xcc, 0xbb, 0xaa, 0x99, 0x88, 0x77, 0x66, 0x55, 0x44, 0x33, 0x22, 0x11,
    0x00], rfl⟩) := by decide

/-- T22. -/
theorem test_decode_frame :
    decode [0x04, 0x12, 0x34, 0x56, 0x78, 0x00, 0x00, 0x01, 0xff] = .ok (.frame 0x12345678 0x000001FF) := by decide

/-- T28. -/
theorem test_decode_ivxor :
    decode [0x05, 0x00, 0x00, 0x00, 0x78, 0x00, 0x00, 0x00, 0xff, 0x08, 0x09, 0x0a, 0x0b, 0x0c, 0x0d, 0x0e,
    0x0f] = .ok (.ivxor ⟨[0x00, 0x00, 0x00, 0x78, 0x00, 0x00, 0x00, 0xff], rfl⟩ ⟨[0x08, 0x09, 0x0a, 0x0b, 0x0c,
    0x0d, 0x0e, 0x0f], rfl⟩) := by decide

/-- T33: `engine_boots` before `engine_time`, then `len` and `data`. -/
theorem test_decode_encprep :
    decode [0x06, 0x00, 0x01, 0x02, 0x03, 0x04, 0x05, 0x06, 0x07, 0x08, 0x09, 0x0a, 0x0b, 0x0c, 0x0d, 0x0e, 0x0f,
    0x12, 0x34, 0x56, 0x78, 0xde, 0xad, 0xbe, 0xef, 0x00, 0x00, 0x00, 0x05, 0x68, 0x65, 0x6c, 0x6c,
    0x6f] = .ok (.encprep k0 0x12345678 0xDEADBEEF [0x68, 0x65, 0x6c, 0x6c, 0x6f]) := by decide

/-- T43. -/
theorem test_decode_decprep :
    decode [0x07, 0x00, 0x01, 0x02, 0x03, 0x04, 0x05, 0x06, 0x07, 0x08, 0x09, 0x0a, 0x0b, 0x0c, 0x0d, 0x0e, 0x0f,
    0x00, 0x00, 0x00, 0x01, 0x00, 0x00, 0x00, 0x02, 0x00, 0x00, 0x00, 0x78, 0x00, 0x00, 0x00, 0xff, 0x00, 0x00,
    0x00, 0x10] = .ok (.decprep k0 1 2 ⟨[0x00, 0x00, 0x00, 0x78, 0x00, 0x00, 0x00, 0xff], rfl⟩ 16) := by decide

/-- T51 to T54: reserved opcodes and the empty packet are refused by name. -/
theorem test_decode_reserved :
    
    decode [0x00] = .error (.reservedOpcode 0x00) ∧ decode [0xff] = .error (.reservedOpcode 0xff) ∧ decode [0x08] = .error (.reservedOpcode 0x08) ∧ decode [] = .error .emptyPacket := by decide

/-- T55, T17, T41: cut short, one byte too many, `len` of 3 with 4 data bytes. -/
theorem test_decode_wrong_length :
    decode [0x04, 0x12, 0x34, 0x56, 0x78] = .error .truncated ∧ decode [0x02,
    0x00] = .error .lengthMismatch ∧ decode [0x06, 0x00, 0x01, 0x02, 0x03, 0x04, 0x05, 0x06, 0x07, 0x08, 0x09, 0x0a,
    0x0b, 0x0c, 0x0d, 0x0e, 0x0f, 0x00, 0x00, 0x00, 0x01, 0x00, 0x00, 0x00, 0x00, 0x00, 0x00, 0x00, 0x03, 0x61,
    0x62, 0x63, 0x7a] = .error .lengthMismatch := by decide

/-- T22 in the numbering of spec/opcode_table.json: the first byte of the packet is the lowest of the word. -/
theorem test_tableWord_frame :
    decodeTableWord 72 0xff0100007856341204 = some (.frame 0x12345678 0x000001FF) := by decide

/-! ### One step: the response and the counter afterwards -/

/-- T7. -/
theorem test_pad_block_of_three :
    reply (blk 1 [[0x01, 0x03, 0x00, 0x00, 0x00, 0x04, 0x61, 0x62, 0x63, 0x64]]) = some ([[0x00, 0x00, 0x00, 0x00,
    0x06, 0x61, 0x62, 0x63, 0x64, 0x00, 0x00]], 1) := by decide

/-- T10. -/
theorem test_pad_block_of_zero :
    reply (blk 1 [[0x01, 0x00, 0x00, 0x00, 0x00, 0x01, 0x61]]) = some ([[0x02]], 1) := by decide

/-- T14: 0xFFFFFFFF is skipped. -/
theorem test_next_wraps :
    reply (blk 0xFFFFFFFE [[0x02]]) = some ([[0x00, 0xff, 0xff, 0xff, 0xfe]], 0) := by decide

/-- T17: no draw. -/
theorem test_next_trailing_byte :
    reply (blk 5 [[0x02, 0x00]]) = some ([[0x02]], 5) := by decide

/-- T18. -/
theorem test_ksplit_halves :
    reply (blk 1 [[0x03, 0x00, 0x01, 0x02, 0x03, 0x04, 0x05, 0x06, 0x07, 0x08, 0x09, 0x0a, 0x0b, 0x0c, 0x0d, 0x0e,
    0x0f]]) = some ([[0x00, 0x00, 0x01, 0x02, 0x03, 0x04, 0x05, 0x06, 0x07, 0x08, 0x09, 0x0a, 0x0b, 0x0c, 0x0d,
    0x0e, 0x0f]], 1) := by decide

/-- T21. -/
theorem test_ksplit_short_key :
    reply (blk 1 [[0x03, 0x00, 0x01, 0x02, 0x03, 0x04, 0x05, 0x06, 0x07, 0x08, 0x09, 0x0a, 0x0b, 0x0c, 0x0d,
    0x0e]]) = some ([[0x02]], 1) := by decide

/-- T22. -/
theorem test_frame_low_bytes :
    reply (blk 1 [[0x04, 0x12, 0x34, 0x56, 0x78, 0x00, 0x00, 0x01, 0xff]]) = some ([[0x00, 0x00, 0x00, 0x00, 0x78,
    0x00, 0x00, 0x00, 0xff]], 1) := by decide

/-- T26: the other legal mask. -/
theorem test_frame_full_mask :
    reply (blkFull 1 [[0x04, 0x12, 0x34, 0x56, 0x78, 0x00, 0x00, 0x01, 0xff]]) = some ([[0x00, 0x12, 0x34, 0x56,
    0x78, 0x00, 0x00, 0x01, 0xff]], 1) := by decide

/-- T28. -/
theorem test_ivxor :
    reply (blk 1 [[0x05, 0x00, 0x00, 0x00, 0x78, 0x00, 0x00, 0x00, 0xff, 0x08, 0x09, 0x0a, 0x0b, 0x0c, 0x0d, 0x0e,
    0x0f]]) = some ([[0x00, 0x08, 0x09, 0x0a, 0x73, 0x0c, 0x0d, 0x0e, 0xf0]], 1) := by decide

/-- T30. -/
theorem test_ivxor_whole_salt :
    reply (blk 1 [[0x05, 0x00, 0x00, 0x00, 0x03, 0x00, 0x00, 0x00, 0xab, 0xff, 0xff, 0xff, 0xff, 0xff, 0xff, 0xff,
    0xff]]) = some ([[0x00, 0xff, 0xff, 0xff, 0xfc, 0xff, 0xff, 0xff, 0x54]], 1) := by decide

/-- T33. -/
theorem test_encprep :
    reply (blk 0x1FF [[0x06, 0x00, 0x01, 0x02, 0x03, 0x04, 0x05, 0x06, 0x07, 0x08, 0x09, 0x0a, 0x0b, 0x0c, 0x0d,
    0x0e, 0x0f, 0x12, 0x34, 0x56, 0x78, 0xde, 0xad, 0xbe, 0xef, 0x00, 0x00, 0x00, 0x05, 0x68, 0x65, 0x6c, 0x6c,
    0x6f]]) = some ([[0x00, 0x00, 0x01, 0x02, 0x03, 0x04, 0x05, 0x06, 0x07, 0x08, 0x09, 0x0a, 0x73, 0x0c, 0x0d,
    0x0e, 0xf0, 0x00, 0x00, 0x00, 0x78, 0x00, 0x00, 0x00, 0xff, 0x00, 0x00, 0x00, 0x08, 0x68, 0x65, 0x6c, 0x6c,
    0x6f, 0x00, 0x00, 0x00]], 0x201) := by decide

/-- T36: the used draw is 0xFFFFFFFD, the discarded one 0xFFFFFFFE. -/
theorem test_encprep_wraps :
    reply (blk 0xFFFFFFFD [[0x06, 0x00, 0x01, 0x02, 0x03, 0x04, 0x05, 0x06, 0x07, 0x08, 0x09, 0x0a, 0x0b, 0x0c,
    0x0d, 0x0e, 0x0f, 0x00, 0x00, 0x00, 0x01, 0x00, 0x00, 0x00, 0x00, 0x00, 0x00, 0x00, 0x00]]) = some ([[0x00,
    0x00, 0x01, 0x02, 0x03, 0x04, 0x05, 0x06, 0x07, 0x08, 0x09, 0x0a, 0x0a, 0x0c, 0x0d, 0x0e, 0xf2, 0x00, 0x00,
    0x00, 0x01, 0x00, 0x00, 0x00, 0xfd, 0x00, 0x00, 0x00, 0x00]], 0) := by decide

/-- T48: a salt from a sender with full fields. -/
theorem test_decprep_whole_salt :
    reply (blk 1 [[0x07, 0x00, 0x01, 0x02, 0x03, 0x04, 0x05, 0x06, 0x07, 0x08, 0x09, 0x0a, 0x0b, 0x0c, 0x0d, 0x0e,
    0x0f, 0x00, 0x00, 0x00, 0x00, 0x00, 0x00, 0x00, 0x00, 0x12, 0x34, 0x56, 0x78, 0x00, 0x00, 0x01, 0xff, 0x00,
    0x00, 0x00, 0x18]]) = some ([[0x00, 0x00, 0x01, 0x02, 0x03, 0x04, 0x05, 0x06, 0x07, 0x1a, 0x3d, 0x5c, 0x73,
    0x0c, 0x0d, 0x0f, 0xf0]], 1) := by decide

/-- T44. -/
theorem test_decprep_misaligned :
    reply (blk 1 [[0x07, 0x00, 0x01, 0x02, 0x03, 0x04, 0x05, 0x06, 0x07, 0x08, 0x09, 0x0a, 0x0b, 0x0c, 0x0d, 0x0e,
    0x0f, 0x00, 0x00, 0x00, 0x01, 0x00, 0x00, 0x00, 0x02, 0x00, 0x00, 0x00, 0x78, 0x00, 0x00, 0x00, 0xff, 0x00,
    0x00, 0x00, 0x0d]]) = some ([[0x01]], 1) := by decide

/-- T54. -/
theorem test_empty_packet :
    reply (blk 1 [[]]) = some ([[0x02]], 1) := by decide

/-! ### The assembler: the examples of R47 and R48 -/

theorem test_assemble_ivxor :
    assemble "IVXOR   x\"00000078000000ff\", x\"08090a0b0c0d0e0f\"".toList =
      some (.ivxor ⟨[0, 0, 0, 0x78, 0, 0, 0, 0xff], rfl⟩ ⟨[8, 9, 0x0a, 0x0b, 0x0c, 0x0d, 0x0e, 0x0f], rfl⟩) := by decide

theorem test_assemble_pad8 :
    assemble "PAD8 \"hello\"".toList = some (.pad 8 [0x68, 0x65, 0x6c, 0x6c, 0x6f]) := by decide

/-! ### Witnesses: for each statement with hypotheses, a state and operands that meet them -/

/-- Each operand check at its boundary: `bs` of 1 and of 255, payloads and `len` of exactly `MAX_LEN`. -/
theorem witness_DecodeEncodeAgree :
    Instr.wellFormed cfg64 (.pad 1 (zeros 64)) = true ∧ Instr.wellFormed cfg64 (.pad 255 []) = true ∧
    Instr.wellFormed cfg64 (.encprep k0 1 0 (zeros 64)) = true ∧
    Instr.wellFormed cfg64 (.decprep k0 0 0 ⟨zeros 8, rfl⟩ 64) = true := by decide

theorem witness_EncodeDecodeAgree : decode [0x04, 0, 0, 0, 3, 0, 0, 0, 0xab] = .ok (.frame 3 0xab) := by decide

/-- `DECPREP` with `len` of `MAX_LEN + 1` and of `MAX_LEN`, `PAD` with `bs` of 0 and of 1. -/
theorem witness_IllegalPacketsRefusedOthersRun :
    illegalPacket cfg64 (encode (.decprep k0 0 0 ⟨zeros 8, rfl⟩ 65)) = true ∧
    illegalPacket cfg64 (encode (.decprep k0 0 0 ⟨zeros 8, rfl⟩ 64)) = false ∧
    illegalPacket cfg64 [0x01, 0, 0, 0, 0, 0] = true ∧ illegalPacket cfg64 [0x01, 1, 0, 0, 0, 0] = false ∧
    (blk 5 [[0x01, 1, 0, 0, 0, 0], [0x02]]).port = [0x01, 1, 0, 0, 0, 0] :: [[0x02]] := by decide

theorem witness_StepRunsDecodedCommand :
    (blk 5 [[0x02]]).port = [0x02] :: [] ∧ decodeCommand (blk 5 [[0x02]]).cfg [0x02] = .ok .next := by decide

theorem witness_EmptyPortStepIdles : (blk 5 []).port = [] := by decide

theorem witness_EveryPacketAnsweredOnce : (blk 5 [[0x02], [0x00]]).port = [0x02] :: [[0x00]] := by decide

theorem witness_StepKeepsResponsesFormed :
    ResponsesFormed ⟨5, cfg64, [[0x02]], [[0x01], [0x00, 0, 0, 0, 4]]⟩ ∧
    ∃ t, step ⟨5, cfg64, [[0x02]], [[0x01], [0x00, 0, 0, 0, 4]]⟩ = .next t :=
  ⟨by decide, _, rfl⟩

/-- Each clause: `bs` of 1 and 255 with payloads of `MAX_LEN` and 0 bytes; `bs` of 0; one byte above `MAX_LEN`; a packet
one byte short and one of the fixed part cut. -/
theorem witness_PadAnswersPaddedPayload :
    ((1 : Byte) ≠ 0 ∧ (zeros 64).length ≤ (blk 5 []).cfg.maxLen.val) ∧
    ((255 : Byte) ≠ 0 ∧ (zeros 0).length ≤ (blk 5 []).cfg.maxLen.val) ∧
    (blk 5 []).cfg.maxLen.val < (zeros 65).length ∧
    (List.head? [(0x01 : Byte), 8, 0, 0, 0, 1] = some 0x01 ∧
      List.length [(0x01 : Byte), 8, 0, 0, 0, 1] ≠ 6 + numberAt [0x01, 8, 0, 0, 0, 1] 2) ∧
    (List.head? [(0x01 : Byte)] = some 0x01 ∧ List.length [(0x01 : Byte)] ≠ 6 + numberAt [0x01] 2) := by decide

theorem witness_KsplitAnswersHalves :
    (0x03 :: zeros 15).head? = some 0x03 ∧ (0x03 :: zeros 15).length ≠ 17 ∧
    (0x03 :: zeros 17).head? = some 0x03 ∧ (0x03 :: zeros 17).length ≠ 17 := by decide

theorem witness_FrameAnswersSalt :
    (0x04 :: zeros 7).head? = some 0x04 ∧ (0x04 :: zeros 7).length ≠ 9 ∧
    (0x04 :: zeros 9).head? = some 0x04 ∧ (0x04 :: zeros 9).length ≠ 9 := by decide

theorem witness_IvxorAnswersBytewiseXor :
    (0x05 :: zeros 15).head? = some 0x05 ∧ (0x05 :: zeros 15).length ≠ 17 ∧
    (0x05 :: zeros 17).head? = some 0x05 ∧ (0x05 :: zeros 17).length ≠ 17 ∧ 0 < 8 ∧ 7 < 8 := by decide

/-- Each clause: a payload of exactly `MAX_LEN`, one byte more, a packet one byte too long. -/
theorem witness_EncprepPreparesAndDrawsTwice :
    (zeros 64).length ≤ (blk 5 []).cfg.maxLen.val ∧ (blk 5 []).cfg.maxLen.val < (zeros 65).length ∧
    ((0x06 :: zeros 29).head? = some 0x06 ∧ (0x06 :: zeros 29).length ≠ 29 + numberAt (0x06 :: zeros 29) 25) := by decide

/-- Each branch at its boundary: `len` of `MAX_LEN + 1`, of `MAX_LEN` (aligned) and of `MAX_LEN - 1` (not aligned). -/
theorem witness_DecprepChecksThenCombines :
    (blk 5 []).cfg.maxLen.val < (65 : Word).toNat ∧
    exec (.decprep k0 0 0 ⟨zeros 8, rfl⟩ 65) (blk 5 []) = .next { blk 5 [] with responses := [[0x02]] } ∧
    ¬ (blk 5 []).cfg.maxLen.val < (64 : Word).toNat ∧ (64 : Word).toNat % 8 = 0 ∧
    exec (.decprep k0 0 0 ⟨zeros 8, rfl⟩ 64) (blk 5 []) =
      .next { blk 5 [] with responses := [0x00 :: k0.1] } ∧
    ¬ (blk 5 []).cfg.maxLen.val < (63 : Word).toNat ∧ (63 : Word).toNat % 8 ≠ 0 ∧
    exec (.decprep k0 0 0 ⟨zeros 8, rfl⟩ 63) (blk 5 []) = .next { blk 5 [] with responses := [[0x01]] } :=
  ⟨by decide, rfl, by decide, by decide, rfl, by decide, by decide, rfl⟩

/-- A `DECPREP` with `len` of 13, whose response is `FORMAT_ERROR`. -/
theorem witness_FormatErrorCause :
    ∃ t r, step (blk 5 [encode (.decprep k0 1 2 ⟨zeros 8, rfl⟩ 13), [0x02]]) = .next t ∧
      t.responses = (blk 5 []).responses ++ [r] ∧ r.head? = some 0x01 ∧
      decodeCommand cfg64 (encode (.decprep k0 1 2 ⟨zeros 8, rfl⟩ 13)) = .ok (.decprep k0 1 2 ⟨zeros 8, rfl⟩ 13) :=
  ⟨_, _, rfl, rfl, rfl, rfl⟩

/-- A reserved opcode. -/
theorem witness_ErrorsHaveNoEffect :
    ∃ t r, step (blk 5 [[0x00], [0x02]]) = .next t ∧ t.responses = (blk 5 []).responses ++ [r] ∧ r.head? ≠ some 0x00 :=
  ⟨_, [0x02], rfl, rfl, by decide⟩

theorem witness_FailedPacketLeavesNoTrace :
    (blk 5 [[0x02, 0], [0x02]]).port = [0x02, 0] :: [[0x02]] ∧ answers 1 (blk 5 [[0x02, 0], [0x02]]) = some [[0x02]] ∧
    List.head? [(0x02 : Byte)] ≠ some 0x00 := by decide

/-- No draw, and three draws across the wrap. -/
theorem witness_DrawsClosedForm :
    (blk 5 []).port = List.replicate 0 [0x02] ∧
    (blk 0xFFFFFFFD [[0x02], [0x02], [0x02]]).port = List.replicate 3 [0x02] := by decide

theorem witness_SaltMovesOnlyByDraws :
    ∃ t, step (blk 0xFFFFFFFE [encode (.encprep k0 1 0 []), [0x02]]) = .next t :=
  ⟨_, rfl⟩

theorem witness_RunAdvancesSaltByDraws : (blk 0xFFFFFFFE [[0x02], [0xff], []]).port = [[0x02], [0xff], []] := by decide

theorem witness_DrawnValueInMergedOrder :
    (blk 5 [[0x02], [0xff], [0x02]]).port = [[0x02], [0xff], [0x02]] ∧
    [[(0x02 : Byte)], [0xff], [0x02]][2]? = some [0x02] := by decide

/-- A run of `NEXT`, a legal `ENCPREP`, an illegal packet and `NEXT`, across the wrap, of four draws. -/
theorem witness_NoValueDrawnTwiceInAPeriod :
    let e : EncprepOperands := ⟨k0, 1, 0, zeros 64⟩
    let ps := [[0x02], encode e.command, [0xff], [0x02]]
    (blk 0xFFFFFFFE ps).port = ps ∧ totalDraws (blk 0xFFFFFFFE ps).cfg ps ≤ 4294967295 ∧
    ps[0]? = some [0x02] ∧ ps[1]? = some (encode e.command) ∧ e.data.length ≤ (blk 0xFFFFFFFE ps).cfg.maxLen.val ∧
    ps[3]? = some [0x02] ∧ 0 < 3 := by decide

/-- The four values of that run: 0xFFFFFFFE answered, 0 used, 1 discarded, 2 answered. -/
theorem test_drawnValues :
    drawnValues 4 (blk 0xFFFFFFFE [[0x02], encode (.encprep k0 1 0 []), [0xff], [0x02]]) = [0xFFFFFFFE, 0, 1, 2] := by
  decide

/-- The least block size; a tail byte; an aligned payload. -/
theorem witness_PadProperties :
    1 ≤ 1 ∧ ((zeros 5).length ≤ 7 ∧ 7 < (pad (zeros 5) 8).length) ∧ (zeros 16).length % 8 = 0 := by decide

theorem witness_PaddingLosesLength : 1 ≤ 8 ∧ [(0x61 : Byte)].length % 8 ≠ 0 := by decide

theorem witness_KeySplitHalves : 0 < 8 ∧ 7 < 8 := by decide

theorem witness_FramedSaltSpace :
    (0x12345678 : Word).toNat % 256 = (0x78 : Word).toNat % 256 ∧
    (0x1FF : Word).toNat % 256 = (0x2FF : Word).toNat % 256 := by decide

/-- Two commands at the port, the first with a payload of `MAX_LEN`; the parity clauses just before, at and long after the
wrap. -/
theorem witness_EncprepRunClosedForm :
    (∀ c ∈ [EncprepOperands.mk k0 5 0 (zeros 64), ⟨k0, 6, 1, []⟩],
      c.data.length ≤ (blk 0xFFFFFFFD []).cfg.maxLen.val) ∧
    (blk 0xFFFFFFFD [encode (EncprepOperands.mk k0 5 0 (zeros 64)).command,
        encode (EncprepOperands.mk k0 6 1 []).command]).port =
      [EncprepOperands.mk k0 5 0 (zeros 64), ⟨k0, 6, 1, []⟩].map (fun c => encode c.command) ∧
    (0xFFFFFFFE : Counter).val + 2 * 0 < 4294967295 ∧
    (4294967295 ≤ (0xFFFFFFFD : Counter).val + 2 * 1 ∧ (0xFFFFFFFD : Counter).val + 2 * 1 < 8589934590) ∧
    (4294967295 ≤ (0xFFFFFFFE : Counter).val + 2 * 2147483645 ∧
      (0xFFFFFFFE : Counter).val + 2 * 2147483645 < 8589934590) := by decide

/-- Equal low bytes; the three cases of the step between two commands; the last command before a wrap. -/
theorem witness_SaltRepetition :
    (0x101 : Word).setWidth 8 = (0x201 : Word).setWidth 8 ∧
    (((0xFFFFFFFC : Counter).val + 2 * 0) % 4294967295 + 2 < 4294967295 ∧
      ((0xFFFFFFFB : Counter).val + 2 * 1) % 4294967295 = 0xFFFFFFFD ∧
      ((0xFFFFFFFC : Counter).val + 2 * 1) % 4294967295 = 0xFFFFFFFE) ∧
    (0xFFFFFFFE : Counter).val + 2 * (0 + 0) < 4294967295 ∧ (5 : Counter).val + 2 * (0 + 128) < 4294967295 := by decide

theorem witness_EncprepEqualsItsParts : (zeros 64).length ≤ (blk 0xFFFFFFFD []).cfg.maxLen.val := by decide

theorem witness_PureCommandsCommute :
    decode [0x04, 0, 0, 0, 3, 0, 0, 0, 0xab] = .ok (.frame 3 0xab) ∧ isPure (.frame 3 0xab) = true ∧
    (EncprepOperands.mk k0 1 0 (zeros 64)).data.length ≤ (blk 5 []).cfg.maxLen.val := by decide

theorem witness_PureAnswersHaveNoHiddenState :
    isPure (.decprep k0 0 0 ⟨zeros 8, rfl⟩ 8) = true ∧ (blk 5 []).cfg = (blk 6 [[0x02]]).cfg := by decide

theorem witness_MaskOnlyAffectsFraming :
    Instr.opcode .next ≠ 0x04 ∧ Instr.opcode .next ≠ 0x06 ∧ Instr.opcode (.decprep k0 0 0 ⟨zeros 8, rfl⟩ 9) ≠ 0x04 ∧
    Instr.opcode (.decprep k0 0 0 ⟨zeros 8, rfl⟩ 9) ≠ 0x06 := by decide

/-- The response of T33; a `len` of 0 and of `MAX_LEN`. -/
theorem witness_ReceiverRecoversKeyAndIv :
    (∃ t : State, exec (.encprep k0 0x12345678 0xDEADBEEF [0x68, 0x65, 0x6c, 0x6c, 0x6f]) (blk 0x1FF []) = .next t ∧
      t.responses = (blk 0x1FF []).responses ++ [0x00 :: ([0, 1, 2, 3, 4, 5, 6, 7] ++
        [8, 9, 0x0a, 0x73, 0x0c, 0x0d, 0x0e, 0xf0] ++ [0, 0, 0, 0x78, 0, 0, 0, 0xff] ++
        [0, 0, 0, 8, 0x68, 0x65, 0x6c, 0x6c, 0x6f, 0, 0, 0])]) ∧
    [(0x68 : Byte), 0x65, 0x6c, 0x6c, 0x6f].length ≤ (blk 0x1FF []).cfg.maxLen.val ∧
    ((64 : Word).toNat ≤ (blk 5 []).cfg.maxLen.val ∧ (64 : Word).toNat % 8 = 0) ∧ (0 : Word).toNat % 8 = 0 :=
  ⟨⟨_, rfl, rfl⟩, by decide⟩

/-! Collaborators for the witnesses of the composition: a cipher that adds the IV to the first block, which meets the
three hypotheses of R83 and stands for no real cipher. -/

/-- The IV added to the first block of the data. -/
def addIv (v : Bytes 8) (d : List Byte) : List Byte :=
  List.zipWith (· ^^^ ·) d (v.1 ++ zeros (d.length - 8))

/-- Collaborators that never fail. -/
def toy : Collaborators Unit Unit where
  localize := fun _ _ => some k0
  cbcEnc := fun _ v d => some (addIv v d)
  cbcDec := fun _ v d => some (addIv v d)

/-- Collaborators whose localisation fails. -/
def toyNoKey : Collaborators Unit Unit := { toy with localize := fun _ _ => none }

/-- Collaborators whose cipher fails. -/
def toyNoCipher : Collaborators Unit Unit := { toy with cbcEnc := fun _ _ _ => none, cbcDec := fun _ _ _ => none }

theorem addIv_length (v : Bytes 8) (d : List Byte) : (addIv v d).length = d.length := by
  simp [addIv, v.2, zeros]; omega

theorem addIv_addIv (v : Bytes 8) (d : List Byte) : addIv v (addIv v d) = d := by
  have h := addIv_length v d
  rw [addIv, h]
  apply List.ext_getElem
  · simp [h, v.2, zeros]; omega
  · intro n h1 h2
    simp [addIv]

theorem toy_cbcLen : toy.CbcLen :=
  fun _ v d y _ => ⟨fun h => by cases h; exact addIv_length v d, fun h => by cases h; exact addIv_length v d⟩

theorem toy_cbcInv : toy.CbcInv := fun _ v d y z _ h1 h2 => by
  cases h1; cases h2; exact addIv_addIv v d

theorem toy_cbcIvSens : toy.CbcIvSens := fun _ v v' d y y' _ h8 hv h1 h2 h => by
  cases h1; cases h2
  refine hv (Subtype.ext (List.ext_getElem (by rw [v.2, v'.2]) fun n hn hn' => ?_))
  have h8 : 8 ≤ d.length := h8
  have hd : n < d.length := by rw [v.2] at hn; omega
  have := congrArg (fun l => l[n]?) h
  simpa [addIv, List.getElem?_zipWith, hd, List.getElem?_append_left hn, List.getElem?_append_left hn', hn, hn']
    using this

/-- Eight bytes encrypted and given back. -/
theorem witness_EncryptDecryptRoundTrip : toy.CbcLen ∧ toy.CbcInv ∧ ∃ (ct : List Byte) (salt : Bytes 8) (t : State),
    encrypt toy () () 1 0 (zeros 8) (blk 5 []) = (.ok (ct, salt), t) ∧ ct.length ≤ (blk 6 []).cfg.maxLen.val ∧
    (decrypt toy () () 2 3 salt ct (blk 6 [])).1 ≠ .error .cipher :=
  ⟨toy_cbcLen, toy_cbcInv, _, _, _, rfl, by decide, by decide⟩

/-- One byte encrypted twice, the second time with another packet at the port; and no byte, twice. -/
theorem witness_ConsecutiveEncryptionsDiffer : toy.CbcLen ∧ toy.CbcIvSens ∧
    (∃ (ct ct' : List Byte) (salt salt' : Bytes 8) (t t' u : State),
      encrypt toy () () 1 0 [0x61] (blk 0xFFFFFFFD []) = (.ok (ct, salt), t) ∧ t'.salt = t.salt ∧ t'.cfg = t.cfg ∧
      encrypt toy () () 1 9 [0x61] t' = (.ok (ct', salt'), u) ∧ [(0x61 : Byte)] ≠ []) ∧
    (∃ (ct ct' : List Byte) (salt salt' : Bytes 8) (t t' u : State),
      encrypt toy () () 1 0 [] (blk 5 []) = (.ok (ct, salt), t) ∧ t'.salt = t.salt ∧ t'.cfg = t.cfg ∧
      encrypt toy () () 1 9 [] t' = (.ok (ct', salt'), u)) :=
  ⟨toy_cbcLen, toy_cbcIvSens,
    ⟨_, _, _, _, _, blk 0 [[0x03]], _, rfl, rfl, rfl, rfl, by decide⟩, ⟨_, _, _, _, _, blk 7 [], _, rfl, rfl, rfl, rfl⟩⟩

theorem witness_CollaboratorFailuresAndSalt :
    toyNoKey.localize () () = none ∧ (encrypt toyNoCipher () () 1 0 [0x61] (blk 0xFFFFFFFE [])).1 = .error .cipher :=
  ⟨rfl, rfl⟩

theorem witness_MisalignedDecryptNeverCallsCipher :
    toy.localize () () ≠ none ∧ (zeros 63).length % 8 ≠ 0 ∧ (zeros 63).length ≤ (blk 5 []).cfg.maxLen.val := by decide

theorem witness_DecryptCheckOrdersAgree :
    toy.localize () () ≠ none ∧ (zeros 63).length ≤ (blk 5 []).cfg.maxLen.val ∧
    (zeros 64).length ≤ (blk 5 []).cfg.maxLen.val := by decide

end Sys2Proof.Tests
end

section
/-! PROOFS, spec/10_state.md: what one packet does to `SALT`, and what the answer of a pure command depends on. -/

namespace Sys2Proof.Safety

open Sys2Proof.Machine

/-! ### `SALT` moves by the draws of the packet (R13) -/

/-- The draws of a command with legal operands; `drawsOf_of_legal` ties it to `drawsOf`. -/
def commandDraws : Instr → Nat
  | .next => 1
  | .encprep _ _ _ _ => 2
  | .pad _ _ | .ksplit _ | .frame _ _ | .ivxor _ _ | .decprep _ _ _ _ _ => 0

/-- An undecodable packet draws nothing. -/
theorem drawsOf_of_error {p : Packet} {e : Illegal} (h : decode p = .error e) (cfg : Config) : drawsOf cfg p = 0 := by
  simp only [drawsOf, decodeCommand, h]

/-- A legal packet draws as often as its command. -/
theorem drawsOf_of_legal {cfg : Config} {p : Packet} {i : Instr} (h : decode p = .ok i)
    (hw : i.wellFormed cfg = true) : drawsOf cfg p = commandDraws i := by
  simp only [drawsOf, decodeCommand_eq_ok.2 ⟨h, hw⟩]
  cases i <;> rfl

/-- A packet with an illegal operand draws nothing. -/
theorem drawsOf_of_illFormed {cfg : Config} {p : Packet} {i : Instr} (h : decode p = .ok i)
    (hw : i.wellFormed cfg = false) : drawsOf cfg p = 0 := by
  cases hc : decodeCommand cfg p with
  | error e => simp only [drawsOf, hc]
  | ok j =>
    obtain ⟨hj, hwj⟩ := decodeCommand_eq_ok.1 hc
    have hij : i = j := Except.ok.inj (h.symm.trans hj)
    simp [← hij, hw] at hwj

/-- The one command that can fail the format check draws nothing. -/
theorem commandDraws_of_formatViolated {i : Instr} (h : formatViolated i = true) : commandDraws i = 0 := by
  cases i with
  | decprep => rfl
  | pad | next | ksplit | frame | ivxor | encprep => cases h

/-- No draw leaves a counter value as it is. -/
theorem counter_val_eq_mod (c : Counter) : c.val = (c.val + 0) % 4294967295 :=
  (Nat.mod_eq_of_lt (counter_lt c)).symm

/-- The counter after a successful command is advanced by its draws. -/
theorem okSalt_val (c : Counter) (i : Instr) : (okSalt c i).val = (c.val + commandDraws i) % 4294967295 := by
  cases i with
  | next => exact succ_val c
  | encprep =>
    simp only [okSalt, commandDraws, succ_val]
    omega
  | pad | ksplit | frame | ivxor | decprep => exact counter_val_eq_mod c

/-- An illegal operand leaves the counter as it is (spec/60_exceptions.md R97). -/
theorem saltAfter_of_illFormed {cfg : Config} {i : Instr} (c : Counter) (hw : i.wellFormed cfg = false) :
    saltAfter cfg c i = c := by
  rcases errorOf_cases cfg i with ⟨-, he⟩ | ⟨hw', -, -⟩ | ⟨hw', -, -⟩
  · simp only [saltAfter, he]
  · simp [hw] at hw'
  · simp [hw] at hw'

/-- A command with legal operands advances the counter by its draws, the format error of `DECPREP` included. -/
theorem saltAfter_val_of_legal {cfg : Config} {i : Instr} (c : Counter) (hw : i.wellFormed cfg = true) :
    (saltAfter cfg c i).val = (c.val + commandDraws i) % 4294967295 := by
  rcases errorOf_cases cfg i with ⟨hw', -⟩ | ⟨-, hf, he⟩ | ⟨-, -, he⟩
  · simp [hw] at hw'
  · simpa only [saltAfter, he, commandDraws_of_formatViolated hf] using counter_val_eq_mod c
  · simpa only [saltAfter, he] using okSalt_val c i

/-- Every packet, legal or not, advances the counter by its draws. -/
theorem packetSalt_val (cfg : Config) (c : Counter) (p : Packet) :
    (packetSalt cfg c p).val = (c.val + drawsOf cfg p) % 4294967295 := by
  cases hd : decode p with
  | error e => simpa only [packetSalt, hd, drawsOf_of_error hd] using counter_val_eq_mod c
  | ok i =>
    cases hw : i.wellFormed cfg with
    | false =>
      simpa only [packetSalt, hd, drawsOf_of_illFormed hd hw, saltAfter_of_illFormed c hw] using counter_val_eq_mod c
    | true => simpa only [packetSalt, hd, drawsOf_of_legal hd hw] using saltAfter_val_of_legal c hw

/-- Settles O25: the step's one outcome is that of `step_eq`, whose counter `packetSalt_val` reads. -/
theorem saltMovesOnlyByDraws : Obligations.SaltMovesOnlyByDraws := by
  unfold Obligations.SaltMovesOnlyByDraws
  intro s t p rest hport hstep
  rw [step_eq hport] at hstep
  cases hstep
  exact packetSalt_val s.cfg s.salt p

/-! ### A pure command has no hidden state (R18) -/

/-- The successful answer of a pure command does not depend on the counter. -/
theorem okAnswer_of_pure {i : Instr} (h : isPure i = true) (cfg : Config) (c c' : Counter) :
    okAnswer cfg c i = okAnswer cfg c' i := by
  cases i with
  | pad | ksplit | frame | ivxor | decprep => rfl
  | next | encprep => cases h

/-- A pure command keeps the counter. -/
theorem okSalt_of_pure {i : Instr} (h : isPure i = true) (c : Counter) : okSalt c i = c := by
  cases i with
  | pad | ksplit | frame | ivxor | decprep => rfl
  | next | encprep => cases h

/-- The answer of a pure command, an error included, does not depend on the counter. -/
theorem answerOf_of_pure {i : Instr} (h : isPure i = true) (cfg : Config) (c c' : Counter) :
    answerOf cfg c i = answerOf cfg c' i := by
  simp only [answerOf, okAnswer_of_pure h cfg c c']

/-- A pure command keeps the counter, whether it fails or not. -/
theorem saltAfter_of_pure {i : Instr} (h : isPure i = true) (cfg : Config) (c : Counter) : saltAfter cfg c i = c := by
  unfold saltAfter
  cases errorOf cfg i with
  | none => exact okSalt_of_pure h c
  | some e => rfl

/-- A pure command only adds its response, the one it gives at any counter value `c`. -/
theorem exec_of_pure {i : Instr} (h : isPure i = true) (c : Counter) (s : State) :
    exec i s = .next { s with responses := s.responses ++ [(answerOf s.cfg c i).encode] } := by
  rw [exec_eq, saltAfter_of_pure h, answerOf_of_pure h s.cfg s.salt c]

/-- Settles O38: the response is the one both states give at the first one's counter value. -/
theorem pureAnswersHaveNoHiddenState : Obligations.PureAnswersHaveNoHiddenState := by
  unfold Obligations.PureAnswersHaveNoHiddenState
  intro i s s' hpure hcfg
  refine ⟨(answerOf s.cfg s.salt i).encode, exec_of_pure hpure s.salt s, ?_⟩
  rw [hcfg]
  exact exec_of_pure hpure s.salt s'

end Sys2Proof.Safety
end

section
/-! PROOFS, spec/20_memory.md: what a step does with the port, and which packets commute. -/

namespace Sys2Proof.Safety

open Sys2Proof.Machine

/-! ### A step and the port (R31) -/

/-- Settles O6: a legal packet is one that decodes, and such a packet is executed as its command. -/
theorem stepRunsDecodedCommand : Obligations.StepRunsDecodedCommand := by
  unfold Obligations.StepRunsDecodedCommand
  intro s p rest i hport hcommand
  obtain ⟨hdecode, -⟩ := decodeCommand_eq_ok.1 hcommand
  rw [step_of_port hport, execPacket_of_ok hdecode]

/-- Settles O7: there is no packet to take. -/
theorem emptyPortStepIdles : Obligations.EmptyPortStepIdles := by
  unfold Obligations.EmptyPortStepIdles
  intro s hport
  have htake : takePacket s = none := by simp only [takePacket, hport]
  simp only [step, htake]

/-! ### Runs of two packets -/

/-- The responses that `n` steps add are those of the first `n` packets of the port. -/
theorem answers_eq (n : Nat) (s : State) : answers n s = some (answersFrom s.cfg s.salt (s.port.take n)) := by
  simp only [answers, after_eq, Option.map_some, List.drop_left]

/-- Two packets, the second from the counter that the first leaves. -/
theorem after_two (s : State) (p q : Packet) :
    after 2 { s with port := [p, q] } = some { s with
      port := []
      salt := packetSalt s.cfg (packetSalt s.cfg s.salt p) q
      responses := s.responses ++
        [packetAnswer s.cfg s.salt p, packetAnswer s.cfg (packetSalt s.cfg s.salt p) q] } :=
  after_eq 2 _

/-- The two responses of a run of two packets. -/
theorem answers_two (s : State) (p q : Packet) :
    answers 2 { s with port := [p, q] } =
      some [packetAnswer s.cfg s.salt p, packetAnswer s.cfg (packetSalt s.cfg s.salt p) q] :=
  answers_eq 2 _

/-! ### Packets of pure commands commute with all packets (R34) -/

/-- The answer to the packet of a pure command does not depend on the counter. -/
theorem packetAnswer_of_pure {p : Packet} {i : Instr} (hd : decode p = .ok i) (h : isPure i = true) (cfg : Config)
    (c c' : Counter) : packetAnswer cfg c p = packetAnswer cfg c' p := by
  simp only [packetAnswer, hd, answerOf_of_pure h cfg c c']

/-- The packet of a pure command keeps the counter. -/
theorem packetSalt_of_pure {p : Packet} {i : Instr} (hd : decode p = .ok i) (h : isPure i = true) (cfg : Config)
    (c : Counter) : packetSalt cfg c p = c := by
  simp only [packetSalt, hd, saltAfter_of_pure h]

/-- The order of a pure command's packet and any other packet shows in nothing but the order of the two responses. -/
theorem pure_packet_commutes {p : Packet} {i : Instr} (hd : decode p = .ok i) (h : isPure i = true) (s : State)
    (q : Packet) :
    ∃ (t u : State) (rp rq : Packet), after 2 { s with port := [p, q] } = some t ∧
      after 2 { s with port := [q, p] } = some u ∧ t.salt = u.salt ∧ t.cfg = u.cfg ∧
      t.responses = s.responses ++ [rp, rq] ∧ u.responses = s.responses ++ [rq, rp] := by
  have hsalt := packetSalt_of_pure hd h s.cfg
  have hanswer := packetAnswer_of_pure hd h s.cfg (packetSalt s.cfg s.salt q) s.salt
  refine ⟨_, _, packetAnswer s.cfg s.salt p, packetAnswer s.cfg s.salt q, after_two s p q, after_two s q p, ?_, rfl,
    ?_, ?_⟩
  · simp only [hsalt]
  · simp only [hsalt]
  · simp only [hanswer]

/-! ### `NEXT` and `ENCPREP` do not commute (R34) -/

/-- The packet of `ENCPREP` decodes to the command where its `len` field can hold the payload's length. -/
theorem decode_encode_encprep (lkey : Bytes 16) (boots time : Word) {data : List Byte} (h : data.length < 2 ^ 32) :
    decode (encode (.encprep lkey boots time data)) = .ok (.encprep lkey boots time data) := by
  have hlen : data.length = (BitVec.ofNat 32 data.length).toNat := by
    rw [BitVec.toNat_ofNat, Nat.mod_eq_of_lt h]
  change decodeEncprep (Instr.operandBytes (.encprep lkey boots time data)) = _
  simp only [Instr.operandBytes, List.append_assoc, decodeEncprep, cut_append, cutWord_be32_append]
  exact finishData_eq_ok.2 ⟨rfl, hlen⟩

/-- The packet of a legal `ENCPREP` draws twice. -/
theorem drawsOf_encprep {cfg : Config} (c : EncprepOperands) (h : c.data.length ≤ cfg.maxLen.val) :
    drawsOf cfg (encode c.command) = 2 := by
  have hmax := maxLen_le cfg
  have hd : decode (encode c.command) = .ok c.command := decode_encode_encprep c.lkey c.boots c.time (by omega)
  exact drawsOf_of_legal hd (decide_eq_true h)

/-- Different counter values are different response values: the counter fits in 32 bits. -/
theorem counterWord_injective : Function.Injective counterWord := fun c d h => by
  have hc := counter_lt c
  have hd := counter_lt d
  have hval := congrArg BitVec.toNat h
  simp only [counterWord, BitVec.toNat_ofNat] at hval
  exact Fin.ext (by omega)

/-- `NEXT` answers the counter value. -/
theorem packetAnswer_next (cfg : Config) (c : Counter) :
    packetAnswer cfg c (encode .next) = okCode :: be32 (counterWord c) := rfl

/-- The answer to `NEXT` tells counter values apart. -/
theorem packetAnswer_next_injective (cfg : Config) :
    Function.Injective fun c : Counter => packetAnswer cfg c (encode .next) := fun c d h => by
  simp only [packetAnswer_next, List.cons.injEq, true_and] at h
  exact counterWord_injective (be32_injective h)

/-- A legal `ENCPREP` leaves another counter value than it found: it advances by 2, which is no
multiple of the period 0xFFFFFFFF. -/
theorem packetSalt_encprep_ne {cfg : Config} (c : EncprepOperands) (h : c.data.length ≤ cfg.maxLen.val)
    (salt : Counter) : salt ≠ packetSalt cfg salt (encode c.command) := fun heq => by
  have hlt := counter_lt salt
  have hval := packetSalt_val cfg salt (encode c.command)
  rw [← heq, drawsOf_encprep c h] at hval
  omega

/-- Settles O37: a pure command's answer and effect ignore the counter; `NEXT` answers the counter, which `ENCPREP`
moves. -/
theorem pureCommandsCommute : Obligations.PureCommandsCommute := by
  unfold Obligations.PureCommandsCommute
  refine ⟨fun s p q i hd hpure => pure_packet_commutes hd hpure s q, fun s c hlen => ?_⟩
  refine ⟨_, _, _, _, answers_two s (encode .next) (encode c.command), answers_two s (encode c.command) (encode .next),
    ?_⟩
  exact (packetAnswer_next_injective s.cfg).ne (packetSalt_encprep_ne c hlen s.salt)

end Sys2Proof.Safety
end

section
/-! PROOFS, spec/30_encoding.md: packets and commands in both directions, which packets are illegal, the form of the
responses, and the assembler's text. -/

namespace Sys2Proof

/-! ### The `len` operand and the length of a packet (R38, R46) -/

/-- The number in the `len` field of a command's format, 0 where the format has none; `lenField_encode` ties it to the
packet. -/
def Instr.lenOperand : Instr → Nat
  | .pad _ data => data.length
  | .encprep _ _ _ data => data.length
  | .decprep _ _ _ _ len => len.toNat
  | .next | .ksplit _ | .frame _ _ | .ivxor _ _ => 0

/-- Well-formed operands are those that pass (c) and (d) of R45; `bs` stands after the opcode of `PAD`. -/
theorem wellFormed_iff {cfg : Config} {i : Instr} :
    i.wellFormed cfg = true ↔
      i.lenOperand ≤ cfg.maxLen.val ∧ (i.opcode = 0x01 → (encode i).getD 1 0 ≠ 0) := by
  cases i with
  | pad bs data => simp [Instr.wellFormed, Instr.lenOperand, Instr.opcode, encode, Instr.operandBytes, and_comm]
  | encprep | decprep => simp [Instr.wellFormed, Instr.lenOperand, Instr.opcode]
  | next | ksplit | frame | ivxor => simp [Instr.wellFormed, Instr.lenOperand, Instr.opcode]

/-- The `len` operand of a legal command fits the 32-bit field: `MAX_LEN` does. -/
theorem lenOperand_lt_of_wellFormed {cfg : Config} {i : Instr} (h : i.wellFormed cfg = true) :
    i.lenOperand < 2 ^ 32 := by
  have hlen := (wellFormed_iff.1 h).1
  have hmax := Machine.maxLen_le cfg
  omega

/-- The `len` field holds the length of every payload it has room for. -/
theorem toNat_ofNat_of_lt {n : Nat} (h : n < 2 ^ 32) : (BitVec.ofNat 32 n).toNat = n := by
  rw [BitVec.toNat_ofNat, Nat.mod_eq_of_lt h]

/-- The packet of every command has the length of its format. -/
theorem length_encode (i : Instr) : (encode i).length = i.packetLength := by
  cases i with
  | pad bs data => exact (Laws.EncodeShape.pad bs data).1
  | next => exact Laws.EncodeShape.next.1
  | ksplit k => exact (Laws.EncodeShape.ksplit k).1
  | frame b l => exact (Laws.EncodeShape.frame b l).1
  | ivxor a v => exact (Laws.EncodeShape.ivxor a v).1
  | encprep k b t data => exact (Laws.EncodeShape.encprep k b t data).1
  | decprep k b t a len => exact (Laws.EncodeShape.decprep k b t a len).1

/-! ### From a command to its packet and back (R36, R38) -/

/-- The decoder reads every packet of the encoder back, where the `len` field has room for the payload's length. -/
theorem decode_encode {i : Instr} (h : i.lenOperand < 2 ^ 32) : decode (encode i) = .ok i := by
  cases i with
  | pad bs data =>
    change decodePad (bs :: be32 (BitVec.ofNat 32 data.length) ++ data) = _
    simp only [decodePad, List.cons_append, cutWord_be32_append]
    exact finishData_eq_ok.2 ⟨rfl, (toNat_ofNat_of_lt h).symm⟩
  | next => rfl
  | ksplit k =>
    change decodeKsplit k.1 = _
    simp only [decodeKsplit, cut_self, finish]
  | frame b l =>
    change decodeFrame (be32 b ++ be32 l) = _
    simp only [decodeFrame, cutWord_be32_append, cutWord_be32, finish]
  | ivxor a v =>
    change decodeIvxor (a.1 ++ v.1) = _
    simp only [decodeIvxor, cut_append, cut_self, finish]
  | encprep k b t data => exact Safety.decode_encode_encprep k b t h
  | decprep k b t a len =>
    change decodeDecprep (k.1 ++ be32 b ++ be32 t ++ a.1 ++ be32 len) = _
    simp only [decodeDecprep, List.append_assoc, cut_append, cutWord_be32_append, cutWord_be32, finish]

/-- Settles O1: a legal command's `len` fits its field, so the packet reads back, and the operand checks then pass. -/
theorem decodeEncodeAgree : Obligations.DecodeEncodeAgree := by
  unfold Obligations.DecodeEncodeAgree
  intro cfg i hwf
  have hdecode : decode (encode i) = .ok i := decode_encode (lenOperand_lt_of_wellFormed hwf)
  exact ⟨hdecode, decodeCommand_eq_ok.2 ⟨hdecode, hwf⟩⟩

/-- A packet with the bytes that the encoder writes for a command decodes to that command. -/
theorem decode_of_eq_encode {p : Packet} {i : Instr} (hp : p = encode i) (h : i.lenOperand < 2 ^ 32) :
    decode p = .ok i := by
  rw [hp, decode_encode h]

/-- Settles O4: each is the packet of its command, byte by byte. -/
theorem samplePacketsDecode : Obligations.SamplePacketsDecode := by
  unfold Obligations.SamplePacketsDecode
  refine ⟨?_, ?_, ?_, ?_, ?_, ?_, ?_⟩ <;> exact decode_of_eq_encode rfl (by decide)

/-! ### From a packet to its command and back (R36, R38, R45) -/

/-- What format P reads is a packet of `PAD`. -/
theorem encode_of_decodePad {body : List Byte} {i : Instr} (h : decodePad body = .ok i) :
    encode i = 0x01 :: body ∧ i.lenOperand < 2 ^ 32 := by
  unfold decodePad at h
  split at h
  · cases h
  · split at h
    · cases h
    · next len data hlen =>
      obtain ⟨rfl, hdata⟩ := finishData_eq_ok.1 h
      rw [eq_of_cutWord hlen]
      refine ⟨?_, lt_of_eq_of_lt hdata len.isLt⟩
      simp only [encode, Instr.opcode, Instr.operandBytes, List.cons_append, hdata, BitVec.ofNat_toNat,
        BitVec.setWidth_eq]

/-- What format K reads is a packet of `KSPLIT`. -/
theorem encode_of_decodeKsplit {body : List Byte} {i : Instr} (h : decodeKsplit body = .ok i) :
    encode i = 0x03 :: body ∧ i.lenOperand < 2 ^ 32 := by
  unfold decodeKsplit at h
  split at h
  · cases h
  · next k rest hk =>
    obtain ⟨rfl, rfl⟩ := finish_eq_ok.1 h
    rw [eq_of_cut hk, List.append_nil]
    exact ⟨rfl, Nat.two_pow_pos 32⟩

/-- What format F reads is a packet of `FRAME`. -/
theorem encode_of_decodeFrame {body : List Byte} {i : Instr} (h : decodeFrame body = .ok i) :
    encode i = 0x04 :: body ∧ i.lenOperand < 2 ^ 32 := by
  unfold decodeFrame at h
  split at h
  · cases h
  · next boots r1 hboots =>
    split at h
    · cases h
    · next loc r2 hloc =>
      obtain ⟨rfl, rfl⟩ := finish_eq_ok.1 h
      rw [eq_of_cutWord hboots, eq_of_cutWord hloc, List.append_nil]
      exact ⟨rfl, Nat.two_pow_pos 32⟩

/-- What format X reads is a packet of `IVXOR`. -/
theorem encode_of_decodeIvxor {body : List Byte} {i : Instr} (h : decodeIvxor body = .ok i) :
    encode i = 0x05 :: body ∧ i.lenOperand < 2 ^ 32 := by
  unfold decodeIvxor at h
  split at h
  · cases h
  · next salt r1 hsalt =>
    split at h
    · cases h
    · next preIv r2 hpreIv =>
      obtain ⟨rfl, rfl⟩ := finish_eq_ok.1 h
      rw [eq_of_cut hsalt, eq_of_cut hpreIv, List.append_nil]
      exact ⟨rfl, Nat.two_pow_pos 32⟩

/-- What format E reads is a packet of `ENCPREP`. -/
theorem encode_of_decodeEncprep {body : List Byte} {i : Instr} (h : decodeEncprep body = .ok i) :
    encode i = 0x06 :: body ∧ i.lenOperand < 2 ^ 32 := by
  unfold decodeEncprep at h
  split at h
  · cases h
  · next lkey r1 hlkey =>
    split at h
    · cases h
    · next boots r2 hboots =>
      split at h
      · cases h
      · next time r3 htime =>
        split at h
        · cases h
        · next len data hlen =>
          obtain ⟨rfl, hdata⟩ := finishData_eq_ok.1 h
          rw [eq_of_cut hlkey, eq_of_cutWord hboots, eq_of_cutWord htime, eq_of_cutWord hlen]
          refine ⟨?_, lt_of_eq_of_lt hdata len.isLt⟩
          simp only [encode, Instr.opcode, Instr.operandBytes, List.append_assoc, hdata, BitVec.ofNat_toNat,
            BitVec.setWidth_eq]

/-- What format D reads is a packet of `DECPREP`. -/
theorem encode_of_decodeDecprep {body : List Byte} {i : Instr} (h : decodeDecprep body = .ok i) :
    encode i = 0x07 :: body ∧ i.lenOperand < 2 ^ 32 := by
  unfold decodeDecprep at h
  split at h
  · cases h
  · next lkey r1 hlkey =>
    split at h
    · cases h
    · next boots r2 hboots =>
      split at h
      · cases h
      · next time r3 htime =>
        split at h
        · cases h
        · next salt r4 hsalt =>
          split at h
          · cases h
          · next len r5 hlen =>
            obtain ⟨rfl, rfl⟩ := finish_eq_ok.1 h
            rw [eq_of_cut hlkey, eq_of_cutWord hboots, eq_of_cutWord htime, eq_of_cut hsalt, eq_of_cutWord hlen]
            refine ⟨?_, len.isLt⟩
            simp only [encode, Instr.opcode, Instr.operandBytes, List.append_assoc, List.append_nil]

/-- A packet that decodes is the packet of its command, whose `len` fits the field. -/
theorem encode_of_decode {p : Packet} {i : Instr} (h : decode p = .ok i) :
    encode i = p ∧ i.lenOperand < 2 ^ 32 := by
  unfold decode at h
  split at h
  · cases h
  · next op body =>
    split at h
    case h_1 hop =>
      rw [BitVec.eq_of_toNat_eq (y := 0x01) hop]
      exact encode_of_decodePad h
    case h_2 hop =>
      obtain ⟨rfl, rfl⟩ := finish_eq_ok.1 h
      rw [BitVec.eq_of_toNat_eq (y := 0x02) hop]
      exact ⟨rfl, Nat.two_pow_pos 32⟩
    case h_3 hop =>
      rw [BitVec.eq_of_toNat_eq (y := 0x03) hop]
      exact encode_of_decodeKsplit h
    case h_4 hop =>
      rw [BitVec.eq_of_toNat_eq (y := 0x04) hop]
      exact encode_of_decodeFrame h
    case h_5 hop =>
      rw [BitVec.eq_of_toNat_eq (y := 0x05) hop]
      exact encode_of_decodeIvxor h
    case h_6 hop =>
      rw [BitVec.eq_of_toNat_eq (y := 0x06) hop]
      exact encode_of_decodeEncprep h
    case h_7 hop =>
      rw [BitVec.eq_of_toNat_eq (y := 0x07) hop]
      exact encode_of_decodeDecprep h
    · cases h

/-- Settles O2: `encode_of_decode` without the bound on `len`. -/
theorem encodeDecodeAgree : Obligations.EncodeDecodeAgree := by
  unfold Obligations.EncodeDecodeAgree
  intro p i hdecode
  exact (encode_of_decode hdecode).1

end Sys2Proof

namespace Sys2Proof.Safety

open Sys2Proof.Machine

/-! ### The illegal packets (R44, R45) -/

/-- The number at the place of a 32-bit field is the field's value. -/
theorem numberAt_of_field {p pre rest : List Byte} {v : Word} {off : Nat} (hp : p = pre ++ be32 v ++ rest)
    (hoff : off = pre.length) : numberAt p off = v.toNat := by
  subst hp hoff
  have hget (k : Nat) : (pre ++ be32 v ++ rest).getD (pre.length + k) 0 = (be32 v ++ rest).getD k 0 := by
    rw [List.append_assoc, List.getD_append_right _ _ _ _ (Nat.le_add_right _ _), Nat.add_sub_cancel_left]
  have hv := v.isLt
  unfold numberAt
  rw [hget 1, hget 2, hget 3, ← Nat.add_zero pre.length, hget 0, be32_eq]
  simp only [List.cons_append, List.getD_cons_zero, List.getD_cons_succ, BitVec.toNat_ofNat]
  omega

/-- The `len` field of a command's packet. -/
theorem lenField_encode {i : Instr} (h : i.lenOperand < 2 ^ 32) : lenField (encode i) = i.lenOperand := by
  cases i with
  | pad bs data => exact (numberAt_of_field (pre := [0x01, bs]) rfl rfl).trans (toNat_ofNat_of_lt h)
  | encprep k b t data =>
    have hoff : 25 = (0x06 :: (k.1 ++ be32 b ++ be32 t)).length := by simp [k.2]
    exact (numberAt_of_field rfl hoff).trans (toNat_ofNat_of_lt h)
  | decprep k b t a len =>
    have hoff : 33 = (0x07 :: (k.1 ++ be32 b ++ be32 t ++ a.1)).length := by simp [k.2, a.2]
    exact numberAt_of_field (List.append_nil _).symm hoff
  | next | ksplit | frame | ivxor => rfl

/-- The packet of a command has its opcode's fixed part and, where the `len` field has room for its length, the payload
that the field states. -/
theorem length_encode_eq_fixedPart {i : Instr} (h : i.lenOperand < 2 ^ 32) :
    ∃ n, fixedPart i.opcode = some n ∧ (encode i).length = n + payloadLength (encode i) := by
  have hlen := lenField_encode h
  rw [length_encode]
  cases i with
  | pad bs data => exact ⟨6, rfl, congrArg (6 + ·) hlen.symm⟩
  | encprep k b t data => exact ⟨29, rfl, congrArg (29 + ·) hlen.symm⟩
  | next => exact ⟨1, rfl, rfl⟩
  | frame => exact ⟨9, rfl, rfl⟩
  | ksplit | ivxor => exact ⟨17, rfl, rfl⟩
  | decprep => exact ⟨37, rfl, rfl⟩

/-- A legal packet has a defined opcode and the length of its format, and passes (c) and (d) of R45. -/
theorem illegalPacket_eq_false {cfg : Config} {p : Packet} :
    illegalPacket cfg p = false ↔
      (∃ n, fixedPart (p.getD 0 0) = some n ∧ p.length = n + payloadLength p) ∧
        lenField p ≤ cfg.maxLen.val ∧ (p.getD 0 0 = 0x01 → p.getD 1 0 ≠ 0) := by
  cases p with
  | nil => simp [illegalPacket, fixedPart]
  | cons op body =>
    unfold illegalPacket
    cases fixedPart ((op :: body).getD 0 0) with
    | none => simp
    | some n =>
      have hshort : (n ≤ body.length + 1 ∧ body.length + 1 = n + payloadLength (op :: body)) ↔
          body.length + 1 = n + payloadLength (op :: body) := by omega
      simp [hshort, and_assoc]

/-- A command whose `len` fits the field has a legal packet exactly where its operands are well-formed. -/
theorem illegalPacket_encode {cfg : Config} {i : Instr} (h : i.lenOperand < 2 ^ 32) :
    illegalPacket cfg (encode i) = false ↔ i.wellFormed cfg = true := by
  have hop : (encode i).getD 0 0 = i.opcode := rfl
  rw [illegalPacket_eq_false, wellFormed_iff, lenField_encode h, hop]
  exact and_iff_right (length_encode_eq_fixedPart h)

/-- The seven defined opcodes and the fixed parts of their formats. -/
theorem fixedPart_eq_some {op : Byte} {n : Nat} (h : fixedPart op = some n) :
    (op = 0x01 ∧ n = 6) ∨ (op = 0x02 ∧ n = 1) ∨ (op = 0x03 ∧ n = 17) ∨ (op = 0x04 ∧ n = 9) ∨
      (op = 0x05 ∧ n = 17) ∨ (op = 0x06 ∧ n = 29) ∨ (op = 0x07 ∧ n = 37) := by
  unfold fixedPart at h
  split_ifs at h <;> simp_all

/-! ### A packet of the length of its format is the packet of a command (R45, R46) -/

/-- Where `n` bytes are left, they can be split off. -/
theorem exists_bytes_append {n : Nat} {l : List Byte} (h : n ≤ l.length) :
    ∃ (b : Bytes n) (rest : List Byte), l = b.1 ++ rest ∧ l.length = n + rest.length :=
  ⟨⟨l.take n, List.length_take_of_le h⟩, l.drop n, (List.take_append_drop n l).symm, by rw [List.length_drop]; omega⟩

/-- Where 4 bytes are left, a 32-bit field can be split off. -/
theorem exists_be32_append {l : List Byte} (h : 4 ≤ l.length) :
    ∃ (v : Word) (rest : List Byte), l = be32 v ++ rest ∧ l.length = 4 + rest.length := by
  match l with
  | a :: b :: c :: d :: rest =>
    refine ⟨ofBe32 a b c d, rest, by rw [be32_ofBe32]; rfl, ?_⟩
    simp only [List.length_cons]
    omega

/-- Format P. -/
theorem exists_encode_pad {body : List Byte} (h : body.length = 5 + numberAt (0x01 :: body) 2) :
    ∃ i : Instr, encode i = 0x01 :: body ∧ i.lenOperand < 2 ^ 32 := by
  match body with
  | [] =>
    rw [List.length_nil] at h
    omega
  | bs :: l =>
    rw [List.length_cons] at h
    obtain ⟨len, data, rfl, hl⟩ := exists_be32_append (l := l) (by omega)
    have hnum : numberAt (0x01 :: bs :: (be32 len ++ data)) 2 = len.toNat :=
      numberAt_of_field (pre := [0x01, bs]) rfl rfl
    have hdata : data.length = len.toNat := by omega
    refine ⟨.pad bs data, ?_, lt_of_eq_of_lt hdata len.isLt⟩
    simp only [encode, Instr.opcode, Instr.operandBytes, List.cons_append, hdata, BitVec.ofNat_toNat,
      BitVec.setWidth_eq]

/-- Format K. -/
theorem exists_encode_ksplit {body : List Byte} (h : body.length = 16) :
    ∃ i : Instr, encode i = 0x03 :: body ∧ i.lenOperand < 2 ^ 32 :=
  ⟨.ksplit ⟨body, h⟩, rfl, Nat.two_pow_pos 32⟩

/-- Format F. -/
theorem exists_encode_frame {body : List Byte} (h : body.length = 8) :
    ∃ i : Instr, encode i = 0x04 :: body ∧ i.lenOperand < 2 ^ 32 := by
  obtain ⟨boots, r1, rfl, h1⟩ := exists_be32_append (l := body) (by omega)
  obtain ⟨loc, r2, rfl, h2⟩ := exists_be32_append (l := r1) (by omega)
  obtain rfl : r2 = [] := List.eq_nil_of_length_eq_zero (by omega)
  refine ⟨.frame boots loc, ?_, Nat.two_pow_pos 32⟩
  simp only [encode, Instr.opcode, Instr.operandBytes, List.append_nil]

/-- Format X. -/
theorem exists_encode_ivxor {body : List Byte} (h : body.length = 16) :
    ∃ i : Instr, encode i = 0x05 :: body ∧ i.lenOperand < 2 ^ 32 := by
  obtain ⟨salt, preIv, rfl, h1⟩ := exists_bytes_append (n := 8) (l := body) (by omega)
  exact ⟨.ivxor salt ⟨preIv, by omega⟩, rfl, Nat.two_pow_pos 32⟩

/-- Format E. -/
theorem exists_encode_encprep {body : List Byte} (h : body.length = 28 + numberAt (0x06 :: body) 25) :
    ∃ i : Instr, encode i = 0x06 :: body ∧ i.lenOperand < 2 ^ 32 := by
  obtain ⟨lkey, r1, rfl, h1⟩ := exists_bytes_append (n := 16) (l := body) (by omega)
  obtain ⟨boots, r2, rfl, h2⟩ := exists_be32_append (l := r1) (by omega)
  obtain ⟨time, r3, rfl, h3⟩ := exists_be32_append (l := r2) (by omega)
  obtain ⟨len, data, rfl, h4⟩ := exists_be32_append (l := r3) (by omega)
  have hnum : numberAt (0x06 :: (lkey.1 ++ (be32 boots ++ (be32 time ++ (be32 len ++ data))))) 25 = len.toNat :=
    numberAt_of_field (pre := 0x06 :: (lkey.1 ++ be32 boots ++ be32 time)) (rest := data) (by simp) (by simp [lkey.2])
  have hdata : data.length = len.toNat := by omega
  refine ⟨.encprep lkey boots time data, ?_, lt_of_eq_of_lt hdata len.isLt⟩
  simp only [encode, Instr.opcode, Instr.operandBytes, List.append_assoc, hdata, BitVec.ofNat_toNat, BitVec.setWidth_eq]

/-- Format D. -/
theorem exists_encode_decprep {body : List Byte} (h : body.length = 36) :
    ∃ i : Instr, encode i = 0x07 :: body ∧ i.lenOperand < 2 ^ 32 := by
  obtain ⟨lkey, r1, rfl, h1⟩ := exists_bytes_append (n := 16) (l := body) (by omega)
  obtain ⟨boots, r2, rfl, h2⟩ := exists_be32_append (l := r1) (by omega)
  obtain ⟨time, r3, rfl, h3⟩ := exists_be32_append (l := r2) (by omega)
  obtain ⟨salt, r4, rfl, h4⟩ := exists_bytes_append (n := 8) (l := r3) (by omega)
  obtain ⟨len, r5, rfl, h5⟩ := exists_be32_append (l := r4) (by omega)
  obtain rfl : r5 = [] := List.eq_nil_of_length_eq_zero (by omega)
  refine ⟨.decprep lkey boots time salt len, ?_, len.isLt⟩
  simp only [encode, Instr.opcode, Instr.operandBytes, List.append_assoc, List.append_nil]

/-- A packet with a defined opcode and the length of its format is the packet of a command. -/
theorem exists_encode_of_length {p : Packet} {n : Nat} (hfixed : fixedPart (p.getD 0 0) = some n)
    (hlength : p.length = n + payloadLength p) : ∃ i : Instr, encode i = p ∧ i.lenOperand < 2 ^ 32 := by
  match p with
  | [] => cases hfixed
  | op :: body =>
    rw [List.length_cons] at hlength
    rcases fixedPart_eq_some hfixed with ⟨rfl, rfl⟩ | ⟨rfl, rfl⟩ | ⟨rfl, rfl⟩ | ⟨rfl, rfl⟩ | ⟨rfl, rfl⟩ | ⟨rfl, rfl⟩ |
      ⟨rfl, rfl⟩
    · have hlen : payloadLength (0x01 :: body) = numberAt (0x01 :: body) 2 := rfl
      exact exists_encode_pad (by omega)
    · have hlen : payloadLength (0x02 :: body) = 0 := rfl
      obtain rfl : body = [] := List.eq_nil_of_length_eq_zero (by omega)
      exact ⟨.next, rfl, Nat.two_pow_pos 32⟩
    · have hlen : payloadLength (0x03 :: body) = 0 := rfl
      exact exists_encode_ksplit (by omega)
    · have hlen : payloadLength (0x04 :: body) = 0 := rfl
      exact exists_encode_frame (by omega)
    · have hlen : payloadLength (0x05 :: body) = 0 := rfl
      exact exists_encode_ivxor (by omega)
    · have hlen : payloadLength (0x06 :: body) = numberAt (0x06 :: body) 25 := rfl
      exact exists_encode_encprep (by omega)
    · have hlen : payloadLength (0x07 :: body) = 0 := rfl
      exact exists_encode_decprep (by omega)

/-- The legal packets are those of the commands with well-formed operands. -/
theorem illegalPacket_eq_false_iff_exists {cfg : Config} {p : Packet} :
    illegalPacket cfg p = false ↔ ∃ i : Instr, i.wellFormed cfg = true ∧ encode i = p := by
  constructor
  · intro h
    obtain ⟨⟨n, hfixed, hlength⟩, -⟩ := illegalPacket_eq_false.1 h
    obtain ⟨i, rfl, hlen⟩ := exists_encode_of_length hfixed hlength
    exact ⟨i, (illegalPacket_encode hlen).1 h, rfl⟩
  · rintro ⟨i, hwf, rfl⟩
    exact (illegalPacket_encode (lenOperand_lt_of_wellFormed hwf)).2 hwf

/-- An illegal operand is answered with `ILLEGAL_CMD`, without effect. -/
theorem exec_of_illFormed {i : Instr} {s : State} (h : i.wellFormed s.cfg = false) :
    exec i s = .next (raise .illegalCmd s) := by
  rcases errorOf_cases s.cfg i with ⟨-, he⟩ | ⟨hwf, -⟩ | ⟨hwf, -⟩
  · rw [exec_eq, saltAfter_of_illFormed s.salt h]
    simp only [answerOf, he]
    rfl
  · simp [h] at hwf
  · simp [h] at hwf

/-- An illegal packet is answered with `ILLEGAL_CMD`, without effect: it does not decode, or an operand is illegal. -/
theorem execPacket_of_illegalPacket {p : Packet} {s : State} (h : illegalPacket s.cfg p = true) :
    execPacket p s = .next (raise .illegalCmd s) := by
  cases hdecode : decode p with
  | error e => exact execPacket_of_error hdecode s
  | ok i =>
    obtain ⟨rfl, hlen⟩ := encode_of_decode hdecode
    have hwf : i.wellFormed s.cfg = false := by
      rw [← Bool.not_eq_true, ← illegalPacket_encode hlen, h]
      decide
    rw [execPacket_of_ok hdecode, exec_of_illFormed hwf]

/-- Settles O3: an illegal packet is refused; any other is the packet of a legal command, which it decodes to. -/
theorem illegalPacketsRefusedOthersRun : Obligations.IllegalPacketsRefusedOthersRun := by
  unfold Obligations.IllegalPacketsRefusedOthersRun
  intro s p rest hport
  rw [step_of_port hport]
  constructor
  · intro hillegal
    exact execPacket_of_illegalPacket (s := { s with port := rest }) hillegal
  · intro hlegal
    obtain ⟨i, hwf, rfl⟩ := illegalPacket_eq_false_iff_exists.1 hlegal
    exact ⟨i, hwf, rfl, execPacket_of_ok (decode_encode (lenOperand_lt_of_wellFormed hwf)) _⟩

/-! ### The form of the responses (R39, R90) -/

/-- A padded payload is shorter than `2 ^ 32` bytes for every legal length and block size: `MAX_LEN` is at most
0xFFFFFF00. -/
theorem pad_length_lt {cfg : Config} {d : List Byte} {bs : Nat} (hbs : 1 ≤ bs) (hbs' : bs < 256)
    (hd : d.length ≤ cfg.maxLen.val) : (pad d bs).length < 2 ^ 32 := by
  have hlt := roundUp_lt d.length bs hbs
  have hmax := maxLen_le cfg
  rw [pad_length d bs hbs]
  omega

/-- The `PAD` row of R39. -/
theorem responseForm_padded {out : List Byte} (h : out.length < 2 ^ 32) : ResponseForm (Response.padded out).encode := by
  have hnum : numberAt (Response.padded out).encode 1 = out.length :=
    (numberAt_of_field (pre := [okCode]) rfl rfl).trans (toNat_ofNat_of_lt h)
  have hlength : (Response.padded out).encode.length = 5 + out.length := by
    simp only [Response.encode, lengthPrefixed, List.length_cons, List.length_append, be32_length]
    omega
  exact .inr (.inr ⟨rfl, .inr (.inr (.inr (.inl ⟨by omega, by omega⟩)))⟩)

/-- The `ENCPREP` row of R39. -/
theorem responseForm_encPrepared {ck iv salt : Bytes 8} {out : List Byte} (h : out.length < 2 ^ 32)
    (h8 : out.length % 8 = 0) : ResponseForm (Response.encPrepared ck iv salt out).encode := by
  have hnum : numberAt (Response.encPrepared ck iv salt out).encode 25 = out.length :=
    (numberAt_of_field (pre := okCode :: (ck.1 ++ iv.1 ++ salt.1)) (rest := out)
      (by simp only [Response.encode, lengthPrefixed, List.cons_append, List.append_assoc])
      (by simp [ck.2, iv.2, salt.2])).trans (toNat_ofNat_of_lt h)
  have hlength : (Response.encPrepared ck iv salt out).encode.length = 29 + out.length := by
    simp [Response.encode, lengthPrefixed, ck.2, iv.2, salt.2]
    omega
  exact .inr (.inr ⟨rfl, .inr (.inr (.inr (.inr ⟨by omega, by omega, by omega⟩)))⟩)

/-- The `NEXT` row of R39. -/
theorem responseForm_drawn (v : Word) : ResponseForm (Response.drawn v).encode :=
  .inr (.inr ⟨rfl, .inl rfl⟩)

/-- A response of 8 bytes after its status, as `FRAME` and `IVXOR` give it. -/
theorem responseForm_of_bytes (b : Bytes 8) : ResponseForm (okCode :: b.1) :=
  .inr (.inr ⟨rfl, .inr (.inl (by simp [b.2]))⟩)

/-- A response of two times 8 bytes after its status, as `KSPLIT` and `DECPREP` give it. -/
theorem responseForm_of_two_bytes (a b : Bytes 8) : ResponseForm (okCode :: (a.1 ++ b.1)) :=
  .inr (.inr ⟨rfl, .inr (.inr (.inl (by simp [a.2, b.2])))⟩)

/-- An error response is its status byte. -/
theorem responseForm_failed (e : ErrorKind) : ResponseForm (Response.failed e).encode := by
  cases e with
  | formatError => exact .inl rfl
  | illegalCmd => exact .inr (.inl rfl)

/-- A command with well-formed operands has the successful response of its row of R39. -/
theorem responseForm_okAnswer {cfg : Config} {i : Instr} (h : i.wellFormed cfg = true) (c : Counter) :
    ResponseForm (okAnswer cfg c i).encode := by
  obtain ⟨hlen, hbs⟩ := wellFormed_iff.1 h
  cases i with
  | pad bs data =>
    have hpos : 1 ≤ bs.toNat := Nat.one_le_iff_ne_zero.2 fun h0 => hbs rfl (BitVec.eq_of_toNat_eq h0)
    exact responseForm_padded (pad_length_lt hpos bs.isLt hlen)
  | next => exact responseForm_drawn _
  | ksplit => exact responseForm_of_two_bytes _ _
  | frame => exact responseForm_of_bytes _
  | ivxor => exact responseForm_of_bytes _
  | encprep k b t data =>
    have h8 : (pad data blockSize).length % 8 = 0 := by
      rw [pad_length data blockSize (by decide)]
      exact Nat.mul_mod_right 8 _
    exact responseForm_encPrepared (pad_length_lt (by decide) (by decide) hlen) h8
  | decprep => exact responseForm_of_two_bytes _ _

/-- Every command has a response of the form of R39: an error is one byte, and success needs well-formed operands. -/
theorem responseForm_answerOf (cfg : Config) (c : Counter) (i : Instr) : ResponseForm (answerOf cfg c i).encode := by
  rcases errorOf_cases cfg i with ⟨-, he⟩ | ⟨-, -, he⟩ | ⟨hwf, -, he⟩
  · simpa only [answerOf, he] using responseForm_failed .illegalCmd
  · simpa only [answerOf, he] using responseForm_failed .formatError
  · simpa only [answerOf, he] using responseForm_okAnswer hwf c

/-- Every packet, illegal or not, has a response of the form of R39. -/
theorem responseForm_packetAnswer (cfg : Config) (c : Counter) (p : Packet) : ResponseForm (packetAnswer cfg c p) := by
  unfold packetAnswer
  cases decode p with
  | error e => exact responseForm_failed .illegalCmd
  | ok i => exact responseForm_answerOf cfg c i

/-- Settles O9: the one outcome is that of `step_eq`, whose response `responseForm_packetAnswer` reads. -/
theorem everyPacketAnsweredOnce : Obligations.EveryPacketAnsweredOnce := by
  unfold Obligations.EveryPacketAnsweredOnce
  intro s p rest hport
  exact ⟨_, _, step_eq hport, responseForm_packetAnswer s.cfg s.salt p, rfl, rfl, rfl⟩

/-- Settles O10: an empty port leaves the responses as they are, and a packet adds one of the form of R39. -/
theorem stepKeepsResponsesFormed : Obligations.StepKeepsResponsesFormed := by
  unfold Obligations.StepKeepsResponsesFormed
  intro s t hformed hstep
  cases hport : s.port with
  | nil =>
    rw [emptyPortStepIdles s hport] at hstep
    cases hstep
    exact hformed
  | cons p rest =>
    obtain ⟨u, r, hnext, hr, -, -, hresponses⟩ := everyPacketAnsweredOnce s p rest hport
    rw [hnext] at hstep
    cases hstep
    intro q hq
    rw [hresponses, List.mem_append, List.mem_singleton] at hq
    rcases hq with hq | rfl
    · exact hformed q hq
    · exact hr

/-! ### A fetched word (R37, R38) -/

/-- The step of the state in which the word of a command's packet is fetched is the command. -/
theorem step_withFetchWord {nbits w : Nat} {i : Instr} (hword : packetOfWord nbits w = encode i)
    (hlen : i.lenOperand < 2 ^ 32) (s : State) : step (s.withFetchWord nbits w) = exec i s := by
  rw [step_of_port (p := encode i) (rest := s.port) (by simp only [State.withFetchWord, placePacket_port, hword])]
  exact execPacket_of_ok (decode_encode hlen) s

/-- Settles O8: each of the seven words, filled with zero bytes, is the packet of its command. -/
theorem fetchedWordRuns : Obligations.FetchedWordRuns := by
  unfold Obligations.FetchedWordRuns
  intro s
  refine ⟨?_, ?_, ?_, ?_, ?_, ?_, ?_⟩ <;> exact step_withFetchWord (by decide) (by decide) s

end Sys2Proof.Safety

namespace Sys2Proof.Machine

/-! ### From a command to its text and back (R47) -/

/-- The last operand of a line, with the rest of the line as the operand readers expect it. -/
theorem commaList_singleton (a : List Char) : commaList [a] = a ++ [] := (List.append_nil a).symm

/-- An operand that is not the last. -/
@[simp] theorem commaList_cons_cons (a b : List Char) (ops : List (List Char)) :
    commaList (a :: b :: ops) = a ++ ',' :: ' ' :: commaList (b :: ops) := by
  simp only [commaList, List.append_assoc, List.cons_append, List.nil_append]

/-- The separator before a byte-sequence operand. -/
@[simp] theorem readComma_asmBytes (l : List Byte) (rest : List Char) :
    readComma (',' :: ' ' :: (asmBytes l ++ rest)) = some (asmBytes l ++ rest) := rfl

/-- The separator before a 32-bit operand. -/
@[simp] theorem readComma_asmWord (v : Word) (rest : List Char) :
    readComma (',' :: ' ' :: (asmWord v ++ rest)) = some (asmWord v ++ rest) := rfl

/-- Nothing is left of the line. -/
@[simp] theorem readEnd_nil (i : Instr) : readEnd [] i = some i := rfl

/-- A number ends at a separator. -/
@[simp] theorem endsNumber_comma (rest : List Char) : EndsNumber (',' :: rest) := by
  intro c hc
  cases hc
  decide

/-- A number ends at the end of the line. -/
@[simp] theorem endsNumber_nil : EndsNumber [] := by
  intro c hc
  cases hc

/-- A mnemonic is one word. -/
theorem mnemonic_ne_space (i : Instr) : ∀ c ∈ Instr.mnemonic i, c ≠ ' ' := by
  cases i <;> simp [Instr.mnemonic]

/-- Each mnemonic's operand reader reads the printed operands back. -/
theorem readOperands_asmOperands (i : Instr) :
    readOperands (Instr.mnemonic i) (commaList (Instr.asmOperands i)) = some i := by
  cases i with
  | pad =>
    simp [readOperands, Instr.mnemonic, Instr.asmOperands, commaList_singleton, readBits_asmByte, readBytes_asmBytes,
      -List.append_nil]
  | next => rfl
  | ksplit =>
    simp [readOperands, Instr.mnemonic, Instr.asmOperands, commaList_singleton, readBytesOf_asmBytes, -List.append_nil]
  | frame =>
    simp [readOperands, Instr.mnemonic, Instr.asmOperands, commaList_singleton, readBits_asmWord, -List.append_nil]
  | ivxor =>
    simp [readOperands, Instr.mnemonic, Instr.asmOperands, commaList_singleton, readBytesOf_asmBytes, -List.append_nil]
  | encprep =>
    simp [readOperands, Instr.mnemonic, Instr.asmOperands, commaList_singleton, readBytesOf_asmBytes, readBits_asmWord,
      readBytes_asmBytes, -List.append_nil]
  | decprep =>
    simp [readOperands, Instr.mnemonic, Instr.asmOperands, commaList_singleton, readBytesOf_asmBytes, readBits_asmWord,
      -List.append_nil]

/-- A command with operands is read back: the line is the mnemonic, a space and the operands. -/
theorem assemble_asm_of_operands {i : Instr} {a : List Char} {ops : List (List Char)}
    (hops : Instr.asmOperands i = a :: ops)
    (hspace : skipSpaces (commaList (Instr.asmOperands i)) = commaList (Instr.asmOperands i)) :
    assemble (Instr.asm i) = some i := by
  have hword : Instr.mnemonic i ≠ [] := by cases i <;> simp [Instr.mnemonic]
  have hasm : Instr.asm i = Instr.mnemonic i ++ ' ' :: commaList (Instr.asmOperands i) := by
    simp only [Instr.asm, hops]
  rw [hasm, assemble_word _ (mnemonic_ne_space i) hword _ hspace, readOperands_asmOperands]

/-- Settles O5: `NEXT` is one word, and the first operand of every other command begins with no space. -/
theorem assembleTextAgree : Obligations.AssembleTextAgree := by
  unfold Obligations.AssembleTextAgree
  intro i
  cases i with
  | next => decide
  | pad | ksplit | frame | ivxor | encprep | decprep => exact assemble_asm_of_operands rfl rfl

end Sys2Proof.Machine
end

section
/-! PROOFS, spec/41_padding.md: the properties of `pad`, and what the command `PAD` answers. -/

namespace Sys2Proof.Machine

/-! ### The rounded-up length -/

/-- Rounding up loses nothing. -/
theorem le_roundUp (L bs : Nat) (h : 1 ≤ bs) : L ≤ bs * ((L + bs - 1) / bs) := by
  rw [← roundUp_eq L bs h]
  exact Nat.le_add_right L _

/-- An unaligned length and the next one round up to the same multiple. -/
theorem roundUp_succ_of_unaligned {L bs : Nat} (h : 1 ≤ bs) (hL : L % bs ≠ 0) :
    bs * ((L + 1 + bs - 1) / bs) = bs * ((L + bs - 1) / bs) := by
  have hndvd : ¬ bs ∣ L + bs - 1 + 1 := by
    rwa [Nat.sub_add_cancel (by omega), Nat.dvd_add_self_right, Nat.dvd_iff_mod_eq_zero]
  rw [show L + 1 + bs - 1 = L + bs - 1 + 1 by omega, Nat.succ_div_of_not_dvd hndvd]

/-! ### The function `pad` (R51 to R53) -/

/-- Aligned input is unchanged. -/
theorem pad_of_aligned {d : List Byte} {bs : Nat} (h : d.length % bs = 0) : pad d bs = d :=
  if_pos h

/-- Padded output is aligned. -/
theorem pad_length_mod (d : List Byte) {bs : Nat} (h : 1 ≤ bs) : (pad d bs).length % bs = 0 := by
  rw [pad_length d bs h, Nat.mul_mod_right]

/-- The length of a padded payload, by the remainder. -/
theorem pad_length_eq_add (d : List Byte) {bs : Nat} (h : 1 ≤ bs) :
    (pad d bs).length = d.length + (bs - d.length % bs) % bs := by
  rw [pad_length d bs h, roundUp_eq d.length bs h]

/-- The payload comes first. -/
theorem take_pad (d : List Byte) {bs : Nat} (h : 1 ≤ bs) : (pad d bs).take d.length = d := by
  rw [pad_eq d h, List.take_left]

/-- After the payload come zero bytes. -/
theorem getElem?_pad_of_le {d : List Byte} {bs k : Nat} (h : 1 ≤ bs) (hk : d.length ≤ k)
    (hk' : k < (pad d bs).length) : (pad d bs)[k]? = some 0x00 := by
  rw [pad_length_eq_add d h] at hk'
  rw [pad_eq d h, List.getElem?_append_right hk, zeros, List.getElem?_replicate_of_lt (by omega)]

/-- Less than a block is appended. -/
theorem pad_length_le (d : List Byte) {bs : Nat} (h : 1 ≤ bs) : (pad d bs).length ≤ d.length + (bs - 1) := by
  have hlt := roundUp_lt d.length bs h
  rw [pad_length d bs h]
  omega

/-- Settles O29: padded output is aligned, so that padding it again changes nothing. -/
theorem padProperties : Obligations.PadProperties := by
  unfold Obligations.PadProperties
  intro d bs h
  exact ⟨pad_length d bs h, pad_length_eq_add d h, take_pad d h, fun k => getElem?_pad_of_le h, pad_of_aligned,
    pad_length_le d h, pad_of_aligned (pad_length_mod d h), pad_of_aligned (Nat.zero_mod bs)⟩

/-- Settles O30: both inputs are filled to the same length, and the byte added is the first that padding would append. -/
theorem paddingLosesLength : Obligations.PaddingLosesLength := by
  unfold Obligations.PaddingLosesLength
  intro d bs h hd
  have hround := roundUp_succ_of_unaligned h hd
  have hle := le_roundUp (d.length + 1) bs h
  rw [pad_eq_append _ bs h, pad_eq_append d bs h, List.length_append, List.length_singleton, hround, List.append_assoc,
    List.singleton_append, ← List.replicate_succ]
  congr 2
  omega

end Sys2Proof.Machine

namespace Sys2Proof.Safety

open Sys2Proof.Machine

/-! ### The command `PAD` (R50) -/

/-- A command with legal operands that passes the format check is answered with its row of R39. -/
theorem exec_of_wellFormed {i : Instr} {s : State} (hwf : i.wellFormed s.cfg = true) (hf : formatViolated i = false) :
    exec i s = .next { s with salt := okSalt s.salt i,
                              responses := s.responses ++ [(okAnswer s.cfg s.salt i).encode] } := by
  rcases errorOf_cases s.cfg i with ⟨hwf', -⟩ | ⟨-, hf', -⟩ | ⟨-, -, he⟩
  · simp [hwf] at hwf'
  · simp [hf] at hf'
  · simp only [exec_eq, saltAfter, answerOf, he]

/-- A packet with a defined opcode but not the length of its format is refused (R45(a), (b)). -/
theorem answeredIllegal_of_length_ne {p : Packet} {n : Nat} (hfixed : fixedPart (p.getD 0 0) = some n)
    (hlength : p.length ≠ n + payloadLength p) (s : State) : AnsweredIllegal p s := by
  have hillegal : illegalPacket s.cfg p = true := by
    rw [← Bool.not_eq_false, illegalPacket_eq_false]
    rintro ⟨⟨m, hm, hlength'⟩, -⟩
    cases hfixed.symm.trans hm
    exact hlength hlength'
  exact (illegalPacketsRefusedOthersRun { s with port := p :: s.port } p s.port rfl).1 hillegal

/-- The legal operands of `PAD`. -/
theorem wellFormed_pad_iff {cfg : Config} {bs : Byte} {data : List Byte} :
    (Instr.pad bs data).wellFormed cfg = true ↔ bs ≠ 0 ∧ data.length ≤ cfg.maxLen.val := by
  simp [Instr.wellFormed]

/-- The response packet of `PAD`. -/
theorem encode_padded_pad (data : List Byte) {bs : Nat} (h : 1 ≤ bs) :
    (Response.padded (pad data bs)).encode =
      0x00 :: be32 (BitVec.ofNat 32 (bs * ((data.length + bs - 1) / bs))) ++ data ++
        List.replicate (bs * ((data.length + bs - 1) / bs) - data.length) 0x00 := by
  rw [Response.encode, lengthPrefixed, pad_length data bs h, pad_eq_append data bs h, List.cons_append,
    List.cons_append, List.append_assoc]
  rfl

/-- Settles O12: legal operands give the padded payload, whose length `pad_length_lt` bounds; illegal operands and a
packet of the wrong length are refused. -/
theorem padAnswersPaddedPayload : Obligations.PadAnswersPaddedPayload := by
  unfold Obligations.PadAnswersPaddedPayload
  refine ⟨fun bs data s => ⟨fun hbs hlen => ?legal, fun hillegal => ?illegal⟩, fun p s hop hlength => ?wrongLength⟩
  case legal =>
    have hpos : 1 ≤ bs.toNat := Nat.one_le_iff_ne_zero.2 fun h0 => hbs (BitVec.eq_of_toNat_eq h0)
    have hfits := pad_length_lt hpos bs.isLt hlen
    rw [pad_length data _ hpos] at hfits
    refine ⟨hfits, le_roundUp _ _ hpos, ?_⟩
    rw [exec_of_wellFormed (wellFormed_pad_iff.2 ⟨hbs, hlen⟩) rfl, ← encode_padded_pad data hpos]
    rfl
  case illegal =>
    have hill : (Instr.pad bs data).wellFormed s.cfg = false := by
      rw [← Bool.not_eq_true, wellFormed_pad_iff]
      rintro ⟨hbs, hlen⟩
      exact hillegal.elim hbs (Nat.not_lt.2 hlen)
    exact exec_of_illFormed hill
  case wrongLength =>
    obtain ⟨body, rfl⟩ := List.head?_eq_some_iff.1 hop
    exact answeredIllegal_of_length_ne (n := 6) rfl hlength s

end Sys2Proof.Safety
end

section
/-! PROOFS, spec/42_salt_sequence.md: the successor, the sequence of draws, the command `NEXT`, and the counter and the
responses at the end of a run of any packets. -/

namespace Sys2Proof.Machine

/-! ### The successor (R57) -/

/-- The exact increment, with 0 in place of 0xFFFFFFFF. -/
theorem succ_val_eq_ite (c : Counter) : (succ c).val = if c.val + 1 = 0xFFFFFFFF then 0 else c.val + 1 := by
  have hlt := counter_lt c
  rw [succ_val]
  split
  case isTrue hwrap => rw [hwrap]
  case isFalse hne => exact Nat.mod_eq_of_lt (by omega)

/-- The successor after 0xFFFFFFFE is 0, after any other value the next number. -/
theorem succ_val_eq_ite_last (c : Counter) : (succ c).val = if c.val = 0xFFFFFFFE then 0 else c.val + 1 := by
  simpa only [Nat.reduceEqDiff] using succ_val_eq_ite c

/-- Different counter values have different successors. -/
theorem succ_injective : Function.Injective succ := fun c d h => by
  have hc := counter_lt c
  have hd := counter_lt d
  have hval := congrArg Fin.val h
  rw [succ_val, succ_val] at hval
  exact Fin.ext (by omega)

/-- Settles O22: a one-to-one map of a finite set into itself is onto. -/
theorem successorIsModular : Obligations.SuccessorIsModular := by
  unfold Obligations.SuccessorIsModular
  exact ⟨succ_val_eq_ite, succ_val, Finite.injective_iff_bijective.1 succ_injective⟩

/-! ### The command `NEXT` (R55) -/

/-- A drawn value is never the response value 0xFFFFFFFF. -/
theorem counterWord_ne_ctrWrap (c : Counter) : counterWord c ≠ 0xFFFFFFFF := fun h => by
  have hlt := counter_lt c
  have hval := congrArg BitVec.toNat h
  rw [counterWord, BitVec.toNat_ofNat, Nat.mod_eq_of_lt (by omega)] at hval
  exact hlt.ne hval

/-- Settles O13: `exec_eq` for `NEXT`, whose answer is the counter before the draw. -/
theorem nextAnswersAndAdvances : Obligations.NextAnswersAndAdvances := by
  unfold Obligations.NextAnswersAndAdvances
  intro s
  exact ⟨_, exec_eq .next s, succ_val_eq_ite_last s.salt, rfl, counterWord_ne_ctrWrap s.salt, rfl, rfl⟩

end Sys2Proof.Machine

namespace Sys2Proof.Safety

open Sys2Proof.Machine

/-! ### The sequence of draws (R58, R59) -/

/-- Each draw is the successor of the one before. -/
theorem drawSeq_succ (s : State) (k : Nat) : drawSeq s (k + 1) = succ (drawSeq s k) := by
  simp only [drawSeq, draw_fst, Function.iterate_succ_apply', draw_salt]

/-- The closed form of the `k`-th draw. -/
theorem drawSeq_val (s : State) (k : Nat) : (drawSeq s k).val = (s.salt.val + k) % 4294967295 := by
  induction k with
  | zero => exact counter_val_eq_mod s.salt
  | succ k ih => rw [drawSeq_succ, succ_val, ih, Nat.mod_add_mod, Nat.add_assoc]

/-- Two draws return the same value exactly where a whole number of periods lies between them. -/
theorem drawSeq_eq_iff_modEq (s : State) (j k : Nat) : drawSeq s j = drawSeq s k ↔ j ≡ k [MOD 4294967295] := by
  rw [Fin.ext_iff, drawSeq_val, drawSeq_val]
  exact Nat.ModEq.add_iff_left (Nat.ModEq.refl s.salt.val)

/-- No value is drawn twice within a period. -/
theorem drawSeq_injOn_period (s : State) {j k k' : Nat} (hk : j ≤ k ∧ k < j + 4294967295)
    (hk' : j ≤ k' ∧ k' < j + 4294967295) (h : drawSeq s k = drawSeq s k') : k = k' := by
  have hmod : k % 4294967295 = k' % 4294967295 := (drawSeq_eq_iff_modEq s k k').1 h
  omega

/-- Every value is drawn within a period: after as many draws as it is ahead of the first one. -/
theorem exists_drawSeq_eq (s : State) (j : Nat) (v : Counter) :
    ∃ k : Nat, (j ≤ k ∧ k < j + 4294967295) ∧ drawSeq s k = v := by
  have hv := counter_lt v
  have hfirst := drawSeq_val s j
  refine ⟨j + (v.val + 4294967295 - (drawSeq s j).val) % 4294967295, ⟨by omega, by omega⟩, Fin.ext ?_⟩
  rw [drawSeq_val]
  omega

/-- Settles O24: a period holds each value at least once by `exists_drawSeq_eq` and at most once by
`drawSeq_injOn_period`. -/
theorem drawsArePeriodic : Obligations.DrawsArePeriodic := by
  unfold Obligations.DrawsArePeriodic
  refine ⟨fun s k => ?consecutive, fun s j v => ?onceAPeriod, fun s j => ?repeats⟩
  case consecutive =>
    rw [drawSeq_succ]
    exact succ_val_eq_ite_last (drawSeq s k)
  case onceAPeriod =>
    obtain ⟨k, hk, hkv⟩ := exists_drawSeq_eq s j v
    refine ⟨k, ⟨hk, hkv⟩, ?_⟩
    rintro k' ⟨hk', hkv'⟩
    exact drawSeq_injOn_period s hk' hk (hkv'.trans hkv.symm)
  case repeats => exact (drawSeq_eq_iff_modEq s _ j).2 Nat.add_modEq_right

/-! ### A run of any packets (R58, spec/70_reset_and_hazards.md R123) -/

/-- A run advances the counter by all its draws. -/
theorem saltFrom_val (cfg : Config) (c : Counter) (ps : List Packet) :
    (saltFrom cfg c ps).val = (c.val + totalDraws cfg ps) % 4294967295 := by
  induction ps generalizing c with
  | nil => exact counter_val_eq_mod c
  | cons p ps ih =>
    calc (saltFrom cfg (packetSalt cfg c p) ps).val
        = ((c.val + drawsOf cfg p) % 4294967295 + totalDraws cfg ps) % 4294967295 := by rw [ih, packetSalt_val]
      _ = (c.val + (drawsOf cfg p + totalDraws cfg ps)) % 4294967295 := by rw [Nat.mod_add_mod, Nat.add_assoc]
      _ = (c.val + totalDraws cfg (p :: ps)) % 4294967295 := by
        rw [totalDraws, totalDraws, List.map_cons, List.sum_cons]

/-- Every packet of a run has one response. -/
@[simp] theorem answersFrom_length (cfg : Config) (c : Counter) (ps : List Packet) :
    (answersFrom cfg c ps).length = ps.length := by
  induction ps generalizing c with
  | nil => rfl
  | cons p ps ih => simp only [answersFrom, List.length_cons, ih]

/-- A run of as many steps as packets wait at the port takes them all. -/
theorem after_length_port (s : State) :
    after s.port.length s = some { s with
      port := []
      salt := saltFrom s.cfg s.salt s.port
      responses := s.responses ++ answersFrom s.cfg s.salt s.port } := by
  rw [after_eq, List.drop_length, List.take_length]

/-- Settles O26: the end of the run is that of `after_length_port`, whose counter `saltFrom_val` reads. -/
theorem runAdvancesSaltByDraws : Obligations.RunAdvancesSaltByDraws := by
  unfold Obligations.RunAdvancesSaltByDraws
  rintro _ s rfl
  exact ⟨_, after_length_port s, saltFrom_val _ _ _, rfl, rfl, _, answersFrom_length _ _ _, rfl⟩

/-! ### A run of `NEXT` (R58) -/

/-- A run of `NEXT` draws once a packet. -/
theorem totalDraws_replicate_next (cfg : Config) (n : Nat) : totalDraws cfg (List.replicate n [0x02]) = n := by
  have hone : drawsOf cfg [0x02] = 1 := rfl
  rw [totalDraws, List.map_replicate, hone, List.sum_replicate, smul_eq_mul, Nat.mul_one]

/-- The answers of a run of `NEXT` are the draws in order. -/
theorem answersFrom_replicate_next (cfg : Config) (c : Counter) (n : Nat) :
    answersFrom cfg c (List.replicate n [0x02]) =
      (List.range n).map fun k => 0x00 :: be32 (BitVec.ofNat 32 ((c.val + k) % 4294967295)) := by
  induction n generalizing c with
  | zero => rfl
  | succ n ih =>
    have hanswer : packetAnswer cfg c [0x02] = 0x00 :: be32 (BitVec.ofNat 32 ((c.val + 0) % 4294967295)) := by
      rw [← counter_val_eq_mod c]
      exact packetAnswer_next cfg c
    have hshift (k : Nat) : ((packetSalt cfg c [0x02]).val + k) % 4294967295 = (c.val + (k + 1)) % 4294967295 := by
      rw [show packetSalt cfg c [0x02] = succ c from rfl, succ_val, Nat.mod_add_mod, Nat.add_assoc, Nat.add_comm 1 k]
    simp only [List.replicate_succ, answersFrom, ih, hanswer, hshift, List.range_succ_eq_map, List.map_cons,
      List.map_map, Function.comp_def, Nat.succ_eq_add_one]

/-- Settles O23: one draw after another, one `NEXT` after another, and the latter from the seed. -/
theorem drawsClosedForm : Obligations.DrawsClosedForm := by
  unfold Obligations.DrawsClosedForm
  refine ⟨drawSeq_val, fun n s hport => ?run, fun n cfg seed => ?fromReset⟩
  case run =>
    have hrun := after_length_port s
    rw [hport, List.length_replicate, answersFrom_replicate_next] at hrun
    refine ⟨_, hrun, ?_, rfl, rfl, rfl⟩
    rw [saltFrom_val, totalDraws_replicate_next]
  case fromReset =>
    rw [answers_eq, present_port, resetWith_port, List.nil_append, List.take_replicate, Nat.min_self,
      answersFrom_replicate_next, present_salt, resetWith_salt_val]

end Sys2Proof.Safety
end

section
/-! PROOFS, spec/43_key_split.md: the two halves of the localized key, and what the command `KSPLIT` answers. -/

namespace Sys2Proof.Machine

/-! ### The function `ksplit` (R64) -/

/-- The cipher key is the first half of the key. -/
@[simp] theorem ksplit_fst_val (k : Bytes 16) : (ksplit k).1.1 = k.1.take 8 := rfl

/-- The pre-IV is the rest of the key: after the first 8 of its 16 bytes no more than 8 are left. -/
@[simp] theorem ksplit_snd_val (k : Bytes 16) : (ksplit k).2.1 = k.1.drop 8 := by
  have hlength : (k.1.drop 8).length ≤ 8 := by rw [List.length_drop, k.2]
  exact List.take_of_length_le hlength

/-- Settles O31: the halves are the key cut after byte 7. -/
theorem keySplitHalves : Obligations.KeySplitHalves := by
  unfold Obligations.KeySplitHalves
  intro k
  rw [ksplit_fst_val, ksplit_snd_val]
  exact ⟨fun n hn => ⟨List.getElem?_take_of_lt hn, List.getElem?_drop⟩, List.take_append_drop 8 k.1⟩

/-- The response packet of `KSPLIT`. -/
theorem encode_split_ksplit (k : Bytes 16) :
    (Response.split (ksplit k).1 (ksplit k).2).encode = 0x00 :: (k.1.take 8 ++ k.1.drop 8) := by
  rw [Response.encode, ksplit_fst_val, ksplit_snd_val]
  rfl

end Sys2Proof.Machine

namespace Sys2Proof.Safety

open Sys2Proof.Machine

/-! ### The command `KSPLIT` (R63) -/

/-- Settles O14: `KSPLIT` is a pure command, with no operand that could be illegal; a packet of the wrong length is
refused. -/
theorem ksplitAnswersHalves : Obligations.KsplitAnswersHalves := by
  unfold Obligations.KsplitAnswersHalves
  refine ⟨fun lkey s => ?anyKey, fun p s hop hlength => ?wrongLength⟩
  case anyKey =>
    have hanswer : answerOf s.cfg s.salt (.ksplit lkey) = .split (ksplit lkey).1 (ksplit lkey).2 := rfl
    rw [exec_of_pure rfl s.salt s, hanswer, encode_split_ksplit]
  case wrongLength =>
    obtain ⟨body, rfl⟩ := List.head?_eq_some_iff.1 hop
    exact answeredIllegal_of_length_ne (n := 17) rfl hlength s

end Sys2Proof.Safety
end

section
/-! PROOFS, spec/44_salt_framing_and_iv.md: the framed salt and how many of them the low-byte mask leaves, the IV
combiner byte by byte, and what the commands `FRAME` and `IVXOR` answer. -/

namespace Sys2Proof.Machine

/-! ### Salt framing (R68, R70) -/

/-- The shape of every salt under the mask of this hardware: byte 3 and byte 7 are free, the others are zero. -/
def lowByteSalt (q : Byte × Byte) : Bytes 8 := ⟨[0, 0, 0, q.1, 0, 0, 0, q.2], rfl⟩

/-- The two low bytes are all that framing under this mask keeps. -/
theorem frame_lowByte_eq (b l : Word) : frame .lowByte b l = lowByteSalt (b.setWidth 8, l.setWidth 8) :=
  Subtype.ext (frame_lowByte b l)

/-- Both free bytes can be read off the salt. -/
theorem lowByteSalt_injective : Function.Injective lowByteSalt := fun q r h => by
  have hbytes : [0, 0, 0, q.1, 0, 0, 0, q.2] = [0, 0, 0, r.1, 0, 0, 0, r.2] := congrArg Subtype.val h
  simp only [List.cons.injEq] at hbytes
  obtain ⟨-, -, -, hboots, -, -, -, hlocal, -⟩ := hbytes
  exact Prod.ext hboots hlocal

/-- The bytes of the salt that are not free. -/
theorem getElem?_lowByteSalt_of_mem (q : Byte × Byte) {n : Nat} (h : n ∈ [0, 1, 2, 4, 5, 6]) :
    (lowByteSalt q).1[n]? = some 0x00 := by
  fin_cases h <;> rfl

/-- Every byte is the low byte of some 32-bit value. -/
theorem setWidth_lowByte_surjective : Function.Surjective (BitVec.setWidth 8 : Word → Byte) := fun x =>
  ⟨x.setWidth 32, by simp⟩

/-- The low byte is the value modulo 256. -/
theorem setWidth_lowByte_congr {v w : Word} (h : v.toNat % 256 = w.toNat % 256) : v.setWidth 8 = w.setWidth 8 :=
  BitVec.eq_of_toNat_eq (by simpa using h)

/-- The number of bytes. -/
theorem card_byte : Nat.card Byte = 256 := by
  rw [Nat.card_congr BitVec.equivFin.toEquiv, Nat.card_fin]
  rfl

/-- The salts under the mask of this hardware: one for each pair of bytes. -/
theorem range_frame_lowByte :
    (Set.range fun q : Word × Word => frame .lowByte q.1 q.2) = Set.range lowByteSalt := by
  have hcomp : (fun q : Word × Word => frame .lowByte q.1 q.2) =
      lowByteSalt ∘ Prod.map (BitVec.setWidth 8) (BitVec.setWidth 8) :=
    funext fun q => frame_lowByte_eq q.1 q.2
  rw [hcomp, (setWidth_lowByte_surjective.prodMap setWidth_lowByte_surjective).range_comp]

/-- The salts of one value of `engine_boots`: one for each byte. -/
theorem range_frame_lowByte_of_boots (b : Word) :
    (Set.range fun l : Word => frame .lowByte b l) = Set.range fun y : Byte => lowByteSalt (b.setWidth 8, y) := by
  have hcomp : (fun l : Word => frame .lowByte b l) =
      (fun y : Byte => lowByteSalt (b.setWidth 8, y)) ∘ BitVec.setWidth 8 :=
    funext fun l => frame_lowByte_eq b l
  rw [hcomp, setWidth_lowByte_surjective.range_comp]

/-- Under the full mask both values can be read off the salt. -/
theorem frame_full_injective : Function.Injective fun q : Word × Word => frame .full q.1 q.2 := fun q r h => by
  have hbytes : be32 q.1 ++ be32 q.2 = be32 r.1 ++ be32 r.2 := by
    rw [← frame_full, ← frame_full]
    exact congrArg Subtype.val h
  obtain ⟨hboots, hlocal⟩ := List.append_inj hbytes rfl
  exact Prod.ext (be32_injective hboots) (be32_injective hlocal)

/-- Settles O32: framing under the low-byte mask is `lowByteSalt` of the two low bytes, so its range is counted by the
pairs of bytes. -/
theorem framedSaltSpace : Obligations.FramedSaltSpace := by
  unfold Obligations.FramedSaltSpace
  refine ⟨fun b b' l l' hb hl => ?lowBytesOnly, ?allSalts, fun b => ?saltsOfBoots, fun b l n hn => ?zeroBytes,
    fun b l => ?period, frame_full_injective⟩
  case lowBytesOnly =>
    rw [frame_lowByte_eq, frame_lowByte_eq, setWidth_lowByte_congr hb, setWidth_lowByte_congr hl]
  case allSalts =>
    rw [range_frame_lowByte, Set.ncard_range_of_injective lowByteSalt_injective, Nat.card_prod, card_byte]
  case saltsOfBoots =>
    have hinjective : Function.Injective fun y : Byte => lowByteSalt (b.setWidth 8, y) :=
      lowByteSalt_injective.comp (Prod.mk_right_injective _)
    rw [range_frame_lowByte_of_boots, Set.ncard_range_of_injective hinjective, card_byte]
  case zeroBytes =>
    rw [frame_lowByte_eq, getElem?_lowByteSalt_of_mem _ hn]
  case period =>
    have hlow : (l + 256).toNat % 256 = l.toNat % 256 := by
      rw [BitVec.toNat_add, Nat.mod_mod_of_dvd _ (by decide)]
      exact Nat.add_mod_right _ _
    rw [frame_lowByte_eq, frame_lowByte_eq, setWidth_lowByte_congr hlow]

/-! ### The IV combiner (R72, R73)

`getD n 0` reads byte `n`, and 0 past the end, so that the law of the combiner needs no bound on `n`. -/

/-- Two byte sequences of one length are equal if they agree byte by byte. -/
theorem bytes_ext {n : Nat} {a b : Bytes n} (h : ∀ k, a.1.getD k 0 = b.1.getD k 0) : a = b := by
  refine Subtype.ext (List.ext_getElem (a.2.trans b.2.symm) fun k ha hb => ?_)
  simpa only [List.getD_eq_getElem _ _ ha, List.getD_eq_getElem _ _ hb] using h k

/-- A byte that is there, read with and without a default. -/
theorem getElem?_eq_some_getD {n k : Nat} (a : Bytes n) (h : k < n) : a.1[k]? = some (a.1.getD k 0) := by
  have hk : k < a.1.length := a.2.symm ▸ h
  rw [List.getD_eq_getElem _ _ hk, List.getElem?_eq_getElem hk]

/-- Byte `k` of the IV is the exclusive OR of bytes `k` (R72). -/
theorem getD_xor8 (a b : Bytes 8) (k : Nat) : (xor8 a b).1.getD k 0 = a.1.getD k 0 ^^^ b.1.getD k 0 := by
  by_cases hk : k < 8
  · simp [xor8, List.getD_eq_getElem?_getD, a.2, b.2, hk]
  · have hend (c : Bytes 8) : c.1.getD k 0 = 0 := List.getD_eq_default _ _ (c.2.trans_le (Nat.le_of_not_lt hk))
    rw [hend, hend, hend]
    rfl

theorem getD_zeros (n k : Nat) : (zeros n).getD k 0 = 0#8 :=
  List.getElem?_getD_replicate_default_eq (0 : Byte) n k

theorem xor8_comm (a b : Bytes 8) : xor8 a b = xor8 b a :=
  bytes_ext fun k => by rw [getD_xor8, getD_xor8, BitVec.xor_comm]

theorem xor8_assoc (a b c : Bytes 8) : xor8 (xor8 a b) c = xor8 a (xor8 b c) :=
  bytes_ext fun k => by simp only [getD_xor8, BitVec.xor_assoc]

theorem xor8_zeros (a : Bytes 8) : xor8 a ⟨zeros 8, rfl⟩ = a :=
  bytes_ext fun k => by rw [getD_xor8, getD_zeros, BitVec.xor_zero]

theorem xor8_self (a : Bytes 8) : xor8 a a = ⟨zeros 8, rfl⟩ :=
  bytes_ext fun k => by rw [getD_xor8, getD_zeros, BitVec.xor_self]

/-- The combiner undoes itself. -/
theorem xor8_xor8_self (a b : Bytes 8) : xor8 (xor8 a b) b = a := by
  rw [xor8_assoc, xor8_self, xor8_zeros]

/-- The pre-IV cancels between two IVs. -/
theorem xor8_xor8_cancel (a b p : Bytes 8) : xor8 (xor8 a p) (xor8 b p) = xor8 a b := by
  rw [xor8_comm b p, ← xor8_assoc, xor8_xor8_self]

/-- Under one pre-IV different salts give different IVs. -/
theorem xor8_left_injective (p : Bytes 8) : Function.Injective fun a => xor8 a p :=
  Function.LeftInverse.injective (g := fun iv => xor8 iv p) fun a => xor8_xor8_self a p

/-- Byte `k` of the IV of a salt framed under the mask of this hardware. -/
theorem getElem?_xor8_frame_lowByte (b l : Word) (p : Bytes 8) {k : Nat} (h : k < 8) :
    (xor8 (frame .lowByte b l) p).1[k]? =
      some (p.1.getD k 0 ^^^ (lowByteSalt (b.setWidth 8, l.setWidth 8)).1.getD k 0) := by
  rw [getElem?_eq_some_getD _ h, getD_xor8, frame_lowByte_eq, BitVec.xor_comm]

/-- Settles O33: clauses (a) to (d) are the laws of exclusive OR, clause (e) is read off the bytes of the salt. -/
theorem xorProperties : Obligations.XorProperties := by
  unfold Obligations.XorProperties
  refine ⟨xor8_comm, xor8_xor8_self, fun a => ⟨xor8_zeros a, xor8_self a⟩,
    fun a b p => ⟨xor8_xor8_cancel a b p, (xor8_left_injective p).eq_iff⟩,
    fun b l p => ⟨fun n hn => ?zeroBytes, getElem?_xor8_frame_lowByte b l p (by decide),
      getElem?_xor8_frame_lowByte b l p (by decide)⟩⟩
  case zeroBytes =>
    have hlt : n < 8 := (by decide : ∀ n ∈ [0, 1, 2, 4, 5, 6], n < 8) n hn
    have hzero : (lowByteSalt (b.setWidth 8, l.setWidth 8)).1.getD n 0 = 0#8 := by
      rw [List.getD_eq_getElem?_getD, getElem?_lowByteSalt_of_mem _ hn, Option.getD_some]
      rfl
    rw [getElem?_xor8_frame_lowByte b l p hlt, hzero, BitVec.xor_zero, getElem?_eq_some_getD p hlt]

end Sys2Proof.Machine

namespace Sys2Proof.Safety

open Sys2Proof.Machine

/-! ### The command `FRAME` (R67) -/

/-- Settles O15: `FRAME` is a pure command, answered with the salt under the mask of the block; a packet of the wrong
length is refused. -/
theorem frameAnswersSalt : Obligations.FrameAnswersSalt := by
  unfold Obligations.FrameAnswersSalt
  refine ⟨fun boots loc s => ?anyOperands, fun p s hop hlength => ?wrongLength⟩
  case anyOperands =>
    have hanswer : answerOf s.cfg s.salt (.frame boots loc) = .framed (frame s.cfg.fieldMask boots loc) := rfl
    rw [exec_of_pure rfl s.salt s, hanswer, Response.encode]
    cases s.cfg.fieldMask with
    | lowByte => rw [frame_lowByte]; rfl
    | full => rw [frame_full]; rfl
  case wrongLength =>
    obtain ⟨body, rfl⟩ := List.head?_eq_some_iff.1 hop
    exact answeredIllegal_of_length_ne (n := 9) rfl hlength s

/-! ### The command `IVXOR` (R71) -/

/-- Settles O16: `IVXOR` is a pure command, answered with the combined IV; a packet of the wrong length is refused. -/
theorem ivxorAnswersBytewiseXor : Obligations.IvxorAnswersBytewiseXor := by
  unfold Obligations.IvxorAnswersBytewiseXor
  refine ⟨fun salt preIv s => ⟨xor8 salt preIv, fun k _ => getD_xor8 salt preIv k, ?anyOperands⟩,
    fun p s hop hlength => ?wrongLength⟩
  case anyOperands => exact exec_of_pure (i := .ivxor salt preIv) rfl s.salt s
  case wrongLength =>
    obtain ⟨body, rfl⟩ := List.head?_eq_some_iff.1 hop
    exact answeredIllegal_of_length_ne (n := 17) rfl hlength s

end Sys2Proof.Safety
end

section
/-! PROOFS, spec/45_privacy_engine.md: what the commands `ENCPREP` and `DECPREP` answer, the salts of a run of
`ENCPREP`, and the host's `encrypt` and `decrypt`. -/

namespace Sys2Proof.Machine

/-! ### The answer of a command by its three cases (spec/60_exceptions.md R96) -/

theorem errorOf_of_illFormed {cfg : Config} {i : Instr} (hwf : i.wellFormed cfg = false) :
    errorOf cfg i = some .illegalCmd := by
  rcases errorOf_cases cfg i with ⟨-, he⟩ | ⟨hwf', -⟩ | ⟨hwf', -⟩
  · exact he
  · simp [hwf] at hwf'
  · simp [hwf] at hwf'

theorem errorOf_of_formatViolated {cfg : Config} {i : Instr} (hwf : i.wellFormed cfg = true)
    (hf : formatViolated i = true) : errorOf cfg i = some .formatError := by
  rcases errorOf_cases cfg i with ⟨hwf', -⟩ | ⟨-, -, he⟩ | ⟨-, hf', -⟩
  · simp [hwf] at hwf'
  · exact he
  · simp [hf] at hf'

theorem errorOf_of_legal {cfg : Config} {i : Instr} (hwf : i.wellFormed cfg = true) (hf : formatViolated i = false) :
    errorOf cfg i = none := by
  rcases errorOf_cases cfg i with ⟨hwf', -⟩ | ⟨-, hf', -⟩ | ⟨-, -, he⟩
  · simp [hwf] at hwf'
  · simp [hf] at hf'
  · exact he

theorem answerOf_of_illFormed {cfg : Config} {i : Instr} (c : Counter) (hwf : i.wellFormed cfg = false) :
    answerOf cfg c i = .failed .illegalCmd := by
  simp only [answerOf, errorOf_of_illFormed hwf]

theorem answerOf_of_formatViolated {cfg : Config} {i : Instr} (c : Counter) (hwf : i.wellFormed cfg = true)
    (hf : formatViolated i = true) : answerOf cfg c i = .failed .formatError := by
  simp only [answerOf, errorOf_of_formatViolated hwf hf]

theorem answerOf_of_legal {cfg : Config} {i : Instr} (c : Counter) (hwf : i.wellFormed cfg = true)
    (hf : formatViolated i = false) : answerOf cfg c i = okAnswer cfg c i := by
  simp only [answerOf, errorOf_of_legal hwf hf]

theorem saltAfter_of_legal {cfg : Config} {i : Instr} (c : Counter) (hwf : i.wellFormed cfg = true)
    (hf : formatViolated i = false) : saltAfter cfg c i = okSalt c i := by
  simp only [saltAfter, errorOf_of_legal hwf hf]

/-- The packet of a command is answered as the command. -/
theorem packetAnswer_encode {i : Instr} (h : i.lenOperand < 2 ^ 32) (cfg : Config) (c : Counter) :
    packetAnswer cfg c (encode i) = (answerOf cfg c i).encode := by
  simp only [packetAnswer, decode_encode h]

/-- The packet of a command moves the counter as the command. -/
theorem packetSalt_encode {i : Instr} (h : i.lenOperand < 2 ^ 32) (cfg : Config) (c : Counter) :
    packetSalt cfg c (encode i) = saltAfter cfg c i := by
  simp only [packetSalt, decode_encode h]

/-! ### The operands of `ENCPREP` and `DECPREP` (R75, R80, R89) -/

theorem wellFormed_encprep_iff {cfg : Config} {k : Bytes 16} {b t : Word} {d : List Byte} :
    (Instr.encprep k b t d).wellFormed cfg = true ↔ d.length ≤ cfg.maxLen.val :=
  decide_eq_true_iff

theorem wellFormed_decprep_iff {cfg : Config} {k : Bytes 16} {b t : Word} {a : Bytes 8} {len : Word} :
    (Instr.decprep k b t a len).wellFormed cfg = true ↔ len.toNat ≤ cfg.maxLen.val :=
  decide_eq_true_iff

theorem formatViolated_decprep_iff {k : Bytes 16} {b t : Word} {a : Bytes 8} {len : Word} :
    formatViolated (.decprep k b t a len) = true ↔ len.toNat % 8 ≠ 0 :=
  bne_iff_ne

/-- No part of `ENCPREP` reads `engine_time`. -/
theorem exec_encprep_time (k : Bytes 16) (b t t' : Word) (d : List Byte) (s : State) :
    exec (.encprep k b t d) s = exec (.encprep k b t' d) s := rfl

/-- No part of `DECPREP` reads `engine_boots` or `engine_time`. -/
theorem exec_decprep_boots_time (k : Bytes 16) (b b' t t' : Word) (a : Bytes 8) (len : Word) (s : State) :
    exec (.decprep k b t a len) s = exec (.decprep k b' t' a len) s := rfl

/-- A payload whose length does not fit the `len` field has no packet that decodes (R45(b)). -/
theorem decode_encode_encprep_of_le (k : Bytes 16) (b t : Word) {d : List Byte} (h : 2 ^ 32 ≤ d.length) :
    decode (encode (.encprep k b t d)) = .error .lengthMismatch := by
  have hne : d.length ≠ (BitVec.ofNat 32 d.length).toNat := fun heq => by
    have hlt := (BitVec.ofNat 32 d.length).isLt
    omega
  change decodeEncprep (Instr.operandBytes (.encprep k b t d)) = _
  simp only [Instr.operandBytes, List.append_assoc, decodeEncprep, cut_append, cutWord_be32_append]
  exact if_neg hne

/-- The packet of `ENCPREP` runs the command, or is refused where its payload is too long for the `len` field. -/
theorem execPacket_encprep (k : Bytes 16) (b t : Word) (d : List Byte) (s : State) :
    execPacket (encode (.encprep k b t d)) s =
      if d.length < 2 ^ 32 then exec (.encprep k b t d) s else .next (raise .illegalCmd s) := by
  split
  case isTrue h => exact execPacket_of_ok (Safety.decode_encode_encprep k b t h) s
  case isFalse h => exact execPacket_of_error (decode_encode_encprep_of_le k b t (Nat.le_of_not_lt h)) s

/-- The packet of `DECPREP` always decodes to the command. -/
theorem decode_encode_decprep (k : Bytes 16) (b t : Word) (a : Bytes 8) (len : Word) :
    decode (encode (.decprep k b t a len)) = .ok (.decprep k b t a len) :=
  decode_encode (i := .decprep k b t a len) len.isLt

/-- Settles O39: each of the two packets is the command, or both are refused; the command does not read the operands. -/
theorem unusedOperandsHaveNoEffect : Obligations.UnusedOperandsHaveNoEffect := by
  unfold Obligations.UnusedOperandsHaveNoEffect
  refine ⟨fun s rest k b t t' d => ?encprep, fun s rest k b b' t t' salt len => ?decprep⟩
  case encprep =>
    rw [step_of_port rfl, step_of_port rfl, execPacket_encprep, execPacket_encprep, exec_encprep_time k b t t']
  case decprep =>
    rw [step_of_port rfl, step_of_port rfl, execPacket_of_ok (decode_encode_decprep k b t salt len),
      execPacket_of_ok (decode_encode_decprep k b' t' salt len), exec_decprep_boots_time k b b' t t']

/-! ### The response of `ENCPREP` (R75, R76) -/

/-- The length and the bytes of a payload padded to the cipher block, as they stand in a response. -/
theorem lengthPrefixed_pad_blockSize (d : List Byte) :
    lengthPrefixed (pad d blockSize) = be32 (BitVec.ofNat 32 (8 * ((d.length + 7) / 8))) ++ d ++
      List.replicate (8 * ((d.length + 7) / 8) - d.length) 0 := by
  have hpos : 1 ≤ blockSize := by decide
  rw [lengthPrefixed, pad_length d blockSize hpos, pad_eq_append d blockSize hpos, List.append_assoc]
  rfl

/-- A legal `ENCPREP` has its successful answer, and draws twice. -/
theorem exec_encprep_of_legal {k : Bytes 16} {b t : Word} {d : List Byte} {s : State}
    (h : d.length ≤ s.cfg.maxLen.val) :
    exec (.encprep k b t d) s = .next { s with
      salt := succ (succ s.salt)
      responses := s.responses ++ [(okAnswer s.cfg s.salt (.encprep k b t d)).encode] } :=
  Safety.exec_of_wellFormed (wellFormed_encprep_iff.2 h) rfl

/-- Two draws. -/
theorem succ_succ_val (c : Counter) : (succ (succ c)).val = (c.val + 2) % 4294967295 := by
  rw [succ_val, succ_val, Nat.mod_add_mod]

/-- The status, key, IV and salt of an `ENCPREP` response can be read off its bytes, since each has a fixed length. -/
theorem encPrepared_fields_inj {ck iv salt ck' iv' salt' : Bytes 8} {out out' : List Byte}
    (h : ck.1 ++ iv.1 ++ salt.1 ++ out = ck'.1 ++ iv'.1 ++ salt'.1 ++ out') :
    ck = ck' ∧ iv = iv' ∧ salt = salt' := by
  simp only [List.append_assoc] at h
  obtain ⟨hck, h⟩ := List.append_inj h (ck.2.trans ck'.2.symm)
  obtain ⟨hiv, h⟩ := List.append_inj h (iv.2.trans iv'.2.symm)
  obtain ⟨hsalt, -⟩ := List.append_inj h (salt.2.trans salt'.2.symm)
  exact ⟨Subtype.ext hck, Subtype.ext hiv, Subtype.ext hsalt⟩

/-- Settles O17: a legal payload gives the successful answer, whose payload `lengthPrefixed_pad_blockSize` writes out; a
longer one and a packet of the wrong length are refused. -/
theorem encprepPreparesAndDrawsTwice : Obligations.EncprepPreparesAndDrawsTwice := by
  unfold Obligations.EncprepPreparesAndDrawsTwice
  refine ⟨fun k b t d s => ⟨fun hlen => ?legal, fun hlong => ?tooLong⟩, fun p s hop hlength => ?wrongLength⟩
  case legal =>
    refine ⟨_, exec_encprep_of_legal hlen, succ_succ_val s.salt, rfl, rfl, ?_⟩
    simp only [okAnswer, Response.encode, okCode, lengthPrefixed_pad_blockSize, List.append_assoc, counterWord]
  case tooLong =>
    have hill : (Instr.encprep k b t d).wellFormed s.cfg = false := by
      rw [← Bool.not_eq_true, wellFormed_encprep_iff]
      exact Nat.not_le.2 hlong
    exact Safety.exec_of_illFormed hill
  case wrongLength =>
    obtain ⟨body, rfl⟩ := List.head?_eq_some_iff.1 hop
    exact Safety.answeredIllegal_of_length_ne (n := 29) rfl hlength s

/-! ### The response of `DECPREP` (R80, R81) -/

theorem answerOf_decprep_of_tooLong {cfg : Config} {len : Word} (h : cfg.maxLen.val < len.toNat) (c : Counter)
    (k : Bytes 16) (b t : Word) (a : Bytes 8) : answerOf cfg c (.decprep k b t a len) = .failed .illegalCmd := by
  refine answerOf_of_illFormed c ?_
  rw [← Bool.not_eq_true, wellFormed_decprep_iff]
  exact Nat.not_le.2 h

theorem answerOf_decprep_of_misaligned {cfg : Config} {len : Word} (h : len.toNat ≤ cfg.maxLen.val)
    (h8 : len.toNat % 8 ≠ 0) (c : Counter) (k : Bytes 16) (b t : Word) (a : Bytes 8) :
    answerOf cfg c (.decprep k b t a len) = .failed .formatError :=
  answerOf_of_formatViolated c (wellFormed_decprep_iff.2 h) (formatViolated_decprep_iff.2 h8)

theorem answerOf_decprep_of_aligned {cfg : Config} {len : Word} (h : len.toNat ≤ cfg.maxLen.val)
    (h8 : len.toNat % 8 = 0) (c : Counter) (k : Bytes 16) (b t : Word) (a : Bytes 8) :
    answerOf cfg c (.decprep k b t a len) = .decPrepared (ksplit k).1 (xor8 a (ksplit k).2) := by
  refine answerOf_of_legal c (wellFormed_decprep_iff.2 h) ?_
  rw [← Bool.not_eq_true, formatViolated_decprep_iff, h8]
  exact not_not_intro rfl

/-- The IV in terms of the localized key. -/
theorem xor8_ksplit_snd_val (a : Bytes 8) (k : Bytes 16) :
    (xor8 a (ksplit k).2).1 = List.zipWith (· ^^^ ·) a.1 (k.1.drop 8) :=
  congrArg (List.zipWith (· ^^^ ·) a.1) (ksplit_snd_val k)

/-- Settles O18: `DECPREP` is a pure command, and its answer is chosen in the order of R96. -/
theorem decprepChecksThenCombines : Obligations.DecprepChecksThenCombines := by
  unfold Obligations.DecprepChecksThenCombines
  intro k b t salt len s
  rw [Safety.exec_of_pure rfl s.salt s]
  split_ifs with hlong h8
  case pos => rw [answerOf_decprep_of_tooLong hlong]; rfl
  case pos => rw [answerOf_decprep_of_misaligned (Nat.le_of_not_lt hlong) h8]; rfl
  case neg =>
    rw [answerOf_decprep_of_aligned (Nat.le_of_not_lt hlong) (not_not.1 h8), Response.encode, ksplit_fst_val,
      xor8_ksplit_snd_val]
    rfl

/-- Settles O41: the given response is the one of `exec_encprep_of_legal`, so its fields are those that `DECPREP`
computes. -/
theorem receiverRecoversKeyAndIv : Obligations.ReceiverRecoversKeyAndIv := by
  unfold Obligations.ReceiverRecoversKeyAndIv
  intro k b b' t t' d len ck iv salt out s u s' hlen hexec hresponses hlen' h8
  rw [exec_encprep_of_legal hlen] at hexec
  cases hexec
  have hbody := (List.cons.inj (List.cons.inj (List.append_cancel_left hresponses)).1).2
  obtain ⟨rfl, rfl, rfl⟩ := encPrepared_fields_inj hbody
  rw [Safety.exec_of_pure rfl s'.salt s', answerOf_decprep_of_aligned hlen' h8]
  rfl

end Sys2Proof.Machine

namespace Sys2Proof.Safety

open Sys2Proof.Machine

/-! ### A response in the middle of a run -/

/-- The `k`-th response of a run is that of its packet, at the counter that the packets before it leave. -/
theorem getElem?_answersFrom (cfg : Config) (c : Counter) (ps : List Packet) (k : Nat) :
    (answersFrom cfg c ps)[k]? = (ps[k]?).map (packetAnswer cfg (saltFrom cfg c (ps.take k))) := by
  induction ps generalizing c k with
  | nil => rfl
  | cons p ps ih =>
    cases k with
    | zero => rfl
    | succ k =>
      simp only [answersFrom, List.getElem?_cons_succ, ih, List.take_succ_cons]
      rfl

/-- A legal command at the head of a run gives its successful answer, and the run goes on from its counter. -/
theorem answersFrom_encode_cons {cfg : Config} {i : Instr} (hwf : i.wellFormed cfg = true)
    (hf : formatViolated i = false) (c : Counter) (ps : List Packet) :
    answersFrom cfg c (encode i :: ps) = (okAnswer cfg c i).encode :: answersFrom cfg (okSalt c i) ps := by
  have hlen := lenOperand_lt_of_wellFormed hwf
  rw [answersFrom, packetAnswer_encode hlen, packetSalt_encode hlen, answerOf_of_legal c hwf hf,
    saltAfter_of_legal c hwf hf]

/-- The counter of the same run. -/
theorem saltFrom_encode_cons {cfg : Config} {i : Instr} (hwf : i.wellFormed cfg = true)
    (hf : formatViolated i = false) (c : Counter) (ps : List Packet) :
    saltFrom cfg c (encode i :: ps) = saltFrom cfg (okSalt c i) ps := by
  rw [saltFrom, List.foldl_cons, packetSalt_encode (lenOperand_lt_of_wellFormed hwf), saltAfter_of_legal c hwf hf]
  rfl

/-! ### A run of `ENCPREP` (R77) -/

/-- The salt in a response of `ENCPREP`. -/
theorem saltField_encPrepared (ck iv salt : Bytes 8) (out : List Byte) :
    saltField (Response.encPrepared ck iv salt out).encode = salt.1 := by
  have hlength : (okCode :: (ck.1 ++ iv.1)).length = 17 := by simp [ck.2, iv.2]
  have hcut : (Response.encPrepared ck iv salt out).encode =
      (okCode :: (ck.1 ++ iv.1)) ++ (salt.1 ++ lengthPrefixed out) := by
    simp only [Response.encode, List.cons_append, List.append_assoc]
  rw [saltField, hcut, List.drop_left' hlength, List.take_left' salt.2]

/-- The response to a legal `ENCPREP` carries the salt framed from the counter. -/
theorem saltField_packetAnswer {cfg : Config} (o : EncprepOperands) (h : o.data.length ≤ cfg.maxLen.val)
    (c : Counter) :
    saltField (packetAnswer cfg c (encode o.command)) = (frame cfg.fieldMask o.boots (counterWord c)).1 := by
  have hwf : o.command.wellFormed cfg = true := wellFormed_encprep_iff.2 h
  rw [packetAnswer_encode (lenOperand_lt_of_wellFormed hwf), answerOf_of_legal c hwf rfl]
  exact saltField_encPrepared _ _ _ _

/-- Every legal `ENCPREP` draws twice. -/
theorem totalDraws_map_encprep {cfg : Config} {cs : List EncprepOperands}
    (h : ∀ o ∈ cs, o.data.length ≤ cfg.maxLen.val) :
    totalDraws cfg (cs.map fun o => encode o.command) = 2 * cs.length := by
  have htwo : ∀ n ∈ (cs.map fun o => encode o.command).map (drawsOf cfg), n = 2 := by
    simpa using fun o ho => drawsOf_encprep o (h o ho)
  rw [totalDraws, List.sum_eq_card_nsmul _ _ htwo, List.length_map, List.length_map, smul_eq_mul, Nat.mul_comm]

/-- The salt of the `k`-th `ENCPREP` of a run is the one of R77. -/
theorem saltField_answersFrom {cfg : Config} {cs : List EncprepOperands}
    (h : ∀ o ∈ cs, o.data.length ≤ cfg.maxLen.val) (c : Counter) {k : Nat} {o : EncprepOperands}
    (hk : cs[k]? = some o) :
    ((answersFrom cfg c (cs.map fun o => encode o.command))[k]?).map saltField =
      some (usedSalt cfg.fieldMask o.boots c k).1 := by
  have hkl : k < cs.length := (List.getElem?_eq_some_iff.1 hk).1
  have hval := saltFrom_val cfg c ((cs.take k).map fun o => encode o.command)
  rw [totalDraws_map_encprep fun o ho => h o (List.mem_of_mem_take ho), List.length_take_of_le hkl.le] at hval
  rw [getElem?_answersFrom, List.getElem?_map, hk, ← List.map_take, Option.map_some, Option.map_some, Option.map_some,
    saltField_packetAnswer o (h o (List.mem_of_getElem? hk)), counterWord, hval, usedSalt]

/-- Two numbers of a run use the same value exactly where a whole number of periods lies between them: the period is
odd, so that 2 can be cancelled. -/
theorem usedValue_eq_iff (s j k : Nat) :
    (s + 2 * j) % 4294967295 = (s + 2 * k) % 4294967295 ↔ j % 4294967295 = k % 4294967295 :=
  calc (s + 2 * j) ≡ (s + 2 * k) [MOD 4294967295]
      ↔ 2 * j ≡ 2 * k [MOD 4294967295] := Nat.ModEq.add_iff_left (Nat.ModEq.refl s)
    _ ↔ j ≡ k [MOD 4294967295] :=
      ⟨Nat.ModEq.cancel_left_of_coprime (by decide), fun h => h.mul_left 2⟩

/-- Every value is used at some place: the inverse of 2 modulo the period is 2147483648. -/
theorem exists_usedValue_eq (s v : Counter) :
    ∃ k : Nat, k < 4294967295 ∧ (s.val + 2 * k) % 4294967295 = v.val := by
  have hs := counter_lt s
  have hv := counter_lt v
  obtain ⟨d, hd⟩ := Nat.exists_eq_add_of_le (show s.val ≤ v.val + 4294967295 by omega)
  refine ⟨2147483648 * d % 4294967295, Nat.mod_lt _ (by decide), ?_⟩
  omega

/-- Settles O34: the run is `after_length_port`; a period holds each value at least once by `exists_usedValue_eq` and at
most once by `usedValue_eq_iff`; a wrap takes off an odd number. -/
theorem encprepRunClosedForm : Obligations.EncprepRunClosedForm := by
  unfold Obligations.EncprepRunClosedForm
  refine ⟨fun cs s hlen hport => ?run, fun s v => ?onceAPeriod, fun s k => ?repeats, fun s k hk => ?beforeWrap,
    fun s k hk hk' => ?afterWrap⟩
  case run =>
    have hafter := after_length_port s
    rw [hport, List.length_map] at hafter
    refine ⟨_, _, hafter, ?_, rfl, fun k o hk => saltField_answersFrom hlen s.salt hk⟩
    rw [saltFrom_val, totalDraws_map_encprep hlen]
  case onceAPeriod =>
    obtain ⟨k, hk, hkv⟩ := exists_usedValue_eq s v
    refine ⟨k, ⟨hk, hkv⟩, ?_⟩
    rintro k' ⟨hk', hkv'⟩
    have hmod := (usedValue_eq_iff s.val k' k).1 (hkv'.trans hkv.symm)
    rwa [Nat.mod_eq_of_lt hk', Nat.mod_eq_of_lt hk] at hmod
  case repeats => exact (usedValue_eq_iff s.val _ k).2 (Nat.add_mod_right k _)
  case beforeWrap =>
    rw [Nat.mod_eq_of_lt hk]
    omega
  case afterWrap =>
    have hlt : s.val + 2 * k - 4294967295 < 4294967295 := by omega
    rw [Nat.mod_eq_sub_mod hk, Nat.mod_eq_of_lt hlt]
    omega

/-! ### When the salt repeats (R78) -/

/-- Under the mask of this hardware only the low bytes of the two words count. -/
theorem frame_lowByte_eq_iff {b b' : Word} (hb : b.setWidth 8 = b'.setWidth 8) (l l' : Word) :
    frame .lowByte b l = frame .lowByte b' l' ↔ l.toNat % 256 = l'.toNat % 256 := by
  rw [frame_lowByte_eq, frame_lowByte_eq, lowByteSalt_injective.eq_iff, Prod.mk.injEq, and_iff_right hb]
  exact ⟨fun h => by simpa using congrArg BitVec.toNat h, setWidth_lowByte_congr⟩

/-- The value that the `k`-th `ENCPREP` frames fits a word. -/
theorem usedValue_toNat (s : Counter) (k : Nat) :
    (BitVec.ofNat 32 ((s.val + 2 * k) % 4294967295)).toNat = (s.val + 2 * k) % 4294967295 :=
  toNat_ofNat_of_lt (by omega)

/-- The last byte of a salt under the mask of this hardware. -/
theorem getElem?_usedSalt_lowByte (b : Word) (s : Counter) (k : Nat) :
    (usedSalt .lowByte b s k).1[7]? = some (BitVec.ofNat 8 ((s.val + 2 * k) % 4294967295)) := by
  rw [usedSalt, frame_lowByte, BitVec.setWidth_ofNat_of_le (by decide)]
  rfl

/-- Equal salts of two numbers, with a fixed low byte of `engine_boots`. -/
theorem usedSalt_lowByte_eq_iff {b b' : Word} (hb : b.setWidth 8 = b'.setWidth 8) (s : Counter) (j k : Nat) :
    usedSalt .lowByte b s j = usedSalt .lowByte b' s k ↔
      (s.val + 2 * j) % 4294967295 % 256 = (s.val + 2 * k) % 4294967295 % 256 := by
  rw [usedSalt, usedSalt, frame_lowByte_eq_iff hb, usedValue_toNat, usedValue_toNat]

/-- Equal salts of two numbers under the full mask: 2 is invertible modulo the period. -/
theorem usedSalt_full_eq_iff (b : Word) (s : Counter) (j k : Nat) :
    usedSalt .full b s j = usedSalt .full b s k ↔ j % 4294967295 = k % 4294967295 := by
  have hinj := frame_full_injective.eq_iff (a := (b, BitVec.ofNat 32 ((s.val + 2 * j) % 4294967295)))
    (b := (b, BitVec.ofNat 32 ((s.val + 2 * k) % 4294967295)))
  rw [usedSalt, usedSalt, hinj, Prod.mk.injEq, and_iff_right rfl, ← BitVec.toNat_inj, usedValue_toNat, usedValue_toNat]
  exact usedValue_eq_iff s.val j k

/-- Two draws on from a value the low byte is another one. -/
theorem lowByte_add_two_ne {v : Nat} (h : v < 4294967295) : v % 256 ≠ (v + 2) % 4294967295 % 256 := by
  rcases Nat.lt_or_ge (v + 2) 4294967295 with hlt | hge
  · rw [Nat.mod_eq_of_lt hlt]
    omega
  · omega

/-- The next number of a run uses the value two draws on. -/
theorem usedValue_succ (s k : Nat) :
    (s + 2 * (k + 1)) % 4294967295 = ((s + 2 * k) % 4294967295 + 2) % 4294967295 := by
  rw [Nat.mod_add_mod, Nat.mul_add, Nat.add_assoc]

/-- Under the mask of this hardware the next salt has another last byte. -/
theorem usedSalt_lowByte_succ_ne {b b' : Word} (hb : b.setWidth 8 = b'.setWidth 8) (s : Counter) (k : Nat) :
    usedSalt .lowByte b s k ≠ usedSalt .lowByte b' s (k + 1) := by
  rw [Ne, usedSalt_lowByte_eq_iff hb, usedValue_succ]
  exact lowByte_add_two_ne (Nat.mod_lt _ (by decide))

/-- Two consecutive `ENCPREP` never give the same salt, under either mask (R78(a), R113). -/
theorem usedSalt_succ_ne (m : FieldMask) (b : Word) (s : Counter) (k : Nat) :
    usedSalt m b s k ≠ usedSalt m b s (k + 1) := by
  cases m with
  | lowByte => exact usedSalt_lowByte_succ_ne rfl s k
  | full =>
    rw [Ne, usedSalt_full_eq_iff]
    omega

/-- Settles O35: equality of salts is equality of the used values modulo 256, or modulo the period under the full
mask. -/
theorem saltRepetition : Obligations.SaltRepetition := by
  unfold Obligations.SaltRepetition
  refine ⟨fun b b' s k hb => ⟨usedSalt_lowByte_succ_ne hb s k, _, _, getElem?_usedSalt_lowByte b s k,
    getElem?_usedSalt_lowByte b' s (k + 1), ?lastBytes⟩, fun b b' s k j hb hk => ?multipleOf128,
    fun b s k hk => ?parity, usedSalt_full_eq_iff⟩
  case lastBytes =>
    rw [usedValue_succ]
    refine ⟨fun hlt => ?noWrap, fun hv => ?toZero, fun hv => ?toOne⟩
    case noWrap => rw [Nat.mod_eq_of_lt hlt, BitVec.ofNat_add]; rfl
    case toZero => rw [hv]; decide
    case toOne => rw [hv]; decide
  case multipleOf128 =>
    rw [usedSalt_lowByte_eq_iff hb, Nat.mod_eq_of_lt (a := s.val + 2 * k) (by omega), Nat.mod_eq_of_lt hk]
    omega
  case parity =>
    refine ⟨_, getElem?_usedSalt_lowByte b s k, ?_⟩
    rw [BitVec.toNat_ofNat, Nat.mod_eq_of_lt hk]
    omega

/-! ### `ENCPREP` and its parts (R79) -/

/-- A run of exactly the given packets. -/
theorem after_with_port (s : State) {n : Nat} {ps : List Packet} (hn : ps.length = n) :
    after n { s with port := ps } = some { s with
      port := []
      salt := saltFrom s.cfg s.salt ps
      responses := s.responses ++ answersFrom s.cfg s.salt ps } :=
  hn ▸ after_length_port { s with port := ps }

/-- The parts of `ENCPREP` before its second draw, and the run from that draw on. -/
theorem answersFrom_split_draw_frame (cfg : Config) (c : Counter) (k : Bytes 16) (b : Word) (ps : List Packet) :
    answersFrom cfg c (encode (.ksplit k) :: encode .next :: encode (.frame b (counterWord c)) :: ps) =
      (okCode :: ((ksplit k).1.1 ++ (ksplit k).2.1)) :: (okCode :: be32 (counterWord c)) ::
        (okCode :: (frame cfg.fieldMask b (counterWord c)).1) :: answersFrom cfg (succ c) ps := by
  rw [answersFrom_encode_cons rfl rfl, answersFrom_encode_cons rfl rfl, answersFrom_encode_cons rfl rfl]
  rfl

/-- The counter of the same run. -/
theorem saltFrom_split_draw_frame (cfg : Config) (c : Counter) (k : Bytes 16) (b l : Word) (ps : List Packet) :
    saltFrom cfg c (encode (.ksplit k) :: encode .next :: encode (.frame b l) :: ps) = saltFrom cfg (succ c) ps := by
  rw [saltFrom_encode_cons rfl rfl, saltFrom_encode_cons rfl rfl, saltFrom_encode_cons rfl rfl]
  rfl

/-- A draw, and the run after it. -/
theorem answersFrom_next_cons (cfg : Config) (c : Counter) (ps : List Packet) :
    answersFrom cfg c (encode .next :: ps) = packetAnswer cfg c (encode .next) :: answersFrom cfg (succ c) ps := rfl

theorem saltFrom_next_cons (cfg : Config) (c : Counter) (ps : List Packet) :
    saltFrom cfg c (encode .next :: ps) = saltFrom cfg (succ c) ps := rfl

/-- The parts of `ENCPREP` after its second draw. -/
theorem answersFrom_combine_pad {cfg : Config} {d : List Byte} (h : d.length ≤ cfg.maxLen.val) (c : Counter)
    (a p : Bytes 8) :
    answersFrom cfg c [encode (.ivxor a p), encode (.pad 8 d)] =
      [okCode :: (xor8 a p).1, okCode :: lengthPrefixed (pad d 8)] := by
  rw [answersFrom_encode_cons rfl rfl, answersFrom_encode_cons (wellFormed_pad_iff.2 ⟨by decide, h⟩) rfl]
  rfl

theorem saltFrom_combine_pad {cfg : Config} {d : List Byte} (h : d.length ≤ cfg.maxLen.val) (c : Counter)
    (a p : Bytes 8) : saltFrom cfg c [encode (.ivxor a p), encode (.pad 8 d)] = c := by
  rw [saltFrom_encode_cons rfl rfl, saltFrom_encode_cons (wellFormed_pad_iff.2 ⟨by decide, h⟩) rfl]
  rfl

/-- No counter value is its own successor. -/
theorem ne_succ (c : Counter) : c ≠ succ c := fun h => by
  have hlt := counter_lt c
  have hval := congrArg Fin.val h
  rw [succ_val] at hval
  omega

/-- Settles O36: the parts before the second draw, the draws, and the parts after them answer the fields of `ENCPREP`; a
draw between takes the value before the one that it would take after the `ENCPREP`. -/
theorem encprepEqualsItsParts : Obligations.EncprepEqualsItsParts := by
  unfold Obligations.EncprepEqualsItsParts
  intro k b t d s hlen
  refine ⟨counterWord s.salt, (ksplit k).1, (ksplit k).2, frame s.cfg.fieldMask b (counterWord s.salt),
    xor8 (frame s.cfg.fieldMask b (counterWord s.salt)) (ksplit k).2,
    packetAnswer s.cfg (succ s.salt) (encode .next), lengthPrefixed (pad d 8), _, _, after_with_port s rfl, ?parts,
    exec_encprep_of_legal hlen, rfl, ?salt, rfl, _, packetAnswer s.cfg (succ s.salt) (encode .next),
    packetAnswer s.cfg (succ (succ s.salt)) (encode .next), packetAnswer s.cfg (succ (succ s.salt)) (encode .next),
    after_with_port s rfl, ?partsApart, ?saltApart, answers_eq 1 _,
    (packetAnswer_next_injective s.cfg).ne (ne_succ (succ s.salt))⟩
  case parts =>
    rw [answersFrom_split_draw_frame, answersFrom_next_cons, answersFrom_combine_pad hlen]
    rfl
  case salt => rw [saltFrom_split_draw_frame, saltFrom_next_cons, saltFrom_combine_pad hlen]
  case partsApart =>
    rw [answersFrom_split_draw_frame, answersFrom_next_cons, answersFrom_next_cons, answersFrom_combine_pad hlen]
    rfl
  case saltApart =>
    rw [saltFrom_split_draw_frame, saltFrom_next_cons, saltFrom_next_cons, saltFrom_combine_pad hlen]

end Sys2Proof.Safety

namespace Sys2Proof.Machine

/-! ### The cipher call, and the block's part of `encrypt` and `decrypt` (R84, R85) -/

/-- What the host makes of its cipher call: the last step of `encrypt` and of `decrypt` (R88); `encrypt_eq_of_legal` and
`decryptWith_of_aligned` tie it to them. -/
def cipherResult {α : Type} : Option α → Except HostError α
  | none => .error .cipher
  | some y => .ok y

theorem cipherResult_eq_ok {α : Type} {o : Option α} {y : α} : cipherResult o = .ok y ↔ o = some y := by
  cases o <;> simp [cipherResult]

theorem exists_of_cipherResult_ne {α : Type} {o : Option α} (h : cipherResult o ≠ .error .cipher) :
    ∃ y, o = some y :=
  match o, h with
  | none, h => absurd rfl h
  | some y, _ => ⟨y, rfl⟩

/-- The host's transaction with the packet of a command. -/
theorem transact_encode {i : Instr} (h : i.lenOperand < 2 ^ 32) (s : State) :
    transact (encode i) s = some ((answerOf s.cfg s.salt i).encode, { s with
      salt := saltAfter s.cfg s.salt i
      responses := s.responses ++ [(answerOf s.cfg s.salt i).encode] }) := by
  rw [transact_eq, packetAnswer_encode h, packetSalt_encode h]

/-- An error status is the host's error, whatever the result fields would be. -/
theorem readWith_of_readStatus {α : Type} {r : Packet} {e : HostError} (h : readStatus r = .error e)
    (fields : List Byte → Option α) : readWith fields r = .error e := by
  simp only [readWith, h]

variable {Key EngineId : Type} {x : Collaborators Key EngineId} {key : Key} {eid : EngineId} {boots time : Word}

/-! ### `encrypt` -/

theorem encrypt_of_localize_none (h : x.localize key eid = none) (p : List Byte) (s : State) :
    encrypt x key eid boots time p s = (.error .keyDerivation, s) := by
  simp only [encrypt, h]

/-- The salt of a call of `encrypt` in state `s`. -/
def encryptSalt (boots : Word) (s : State) : Bytes 8 :=
  frame s.cfg.fieldMask boots (counterWord s.salt)

/-- A call with a legal payload ends with the cipher call, under the key, IV and payload that `ENCPREP` answers. -/
theorem encrypt_eq_of_legal {lkey : Bytes 16} {p : List Byte} {s : State} (hkey : x.localize key eid = some lkey)
    (hlen : p.length ≤ s.cfg.maxLen.val) :
    encrypt x key eid boots time p s =
      (cipherResult ((x.cbcEnc (ksplit lkey).1 (xor8 (encryptSalt boots s) (ksplit lkey).2) (pad p 8)).map
        fun ct => (ct, encryptSalt boots s)),
      { s with
        salt := succ (succ s.salt)
        responses := s.responses ++ [(answerOf s.cfg s.salt (.encprep lkey boots time p)).encode] }) := by
  have hwf : (Instr.encprep lkey boots time p).wellFormed s.cfg = true := wellFormed_encprep_iff.2 hlen
  have hanswer : answerOf s.cfg s.salt (.encprep lkey boots time p) = .encPrepared (ksplit lkey).1
      (xor8 (encryptSalt boots s) (ksplit lkey).2) (encryptSalt boots s) (pad p 8) := answerOf_of_legal s.salt hwf rfl
  have hsalt : saltAfter s.cfg s.salt (.encprep lkey boots time p) = succ (succ s.salt) :=
    saltAfter_of_legal s.salt hwf rfl
  have hfits : (pad p 8).length < 2 ^ 32 := Safety.pad_length_lt (by decide) (by decide) hlen
  simp only [encrypt, hkey, transact_encode (lenOperand_lt_of_wellFormed hwf), hanswer, hsalt,
    readWith_encPrepared _ _ _ _ hfits]
  cases x.cbcEnc (ksplit lkey).1 (xor8 (encryptSalt boots s) (ksplit lkey).2) (pad p 8) <;> rfl

/-- A payload above `MAX_LEN` is refused by the block, whether the `len` field has room for its length or not. -/
theorem packetAnswer_encprep_of_tooLong {cfg : Config} {p : List Byte} (h : cfg.maxLen.val < p.length) (c : Counter)
    (lkey : Bytes 16) (boots time : Word) :
    packetAnswer cfg c (encode (.encprep lkey boots time p)) = (Response.failed .illegalCmd).encode := by
  rcases Nat.lt_or_ge p.length (2 ^ 32) with hlt | hge
  · have hill : (Instr.encprep lkey boots time p).wellFormed cfg = false := by
      rw [← Bool.not_eq_true, wellFormed_encprep_iff]
      exact Nat.not_le.2 h
    rw [packetAnswer_encode (i := .encprep lkey boots time p) hlt, answerOf_of_illFormed c hill]
  · simp only [packetAnswer, decode_encode_encprep_of_le lkey boots time hge]
    rfl

theorem encrypt_fst_of_tooLong {lkey : Bytes 16} {p : List Byte} {s : State} (hkey : x.localize key eid = some lkey)
    (h : s.cfg.maxLen.val < p.length) : (encrypt x key eid boots time p s).1 = .error .illegalCommand := by
  have hread : readWith cutEncprep (Response.failed .illegalCmd).encode = .error .illegalCommand :=
    readWith_of_readStatus (readStatus_failed .illegalCmd) _
  simp only [encrypt, hkey, transact_eq, packetAnswer_encprep_of_tooLong h, hread]

/-- A call of `encrypt` that comes as far as the cipher has a localized key and a legal payload. -/
theorem reachesCipher_of_encrypt {p : List Byte} {s : State}
    (h : (encrypt x key eid boots time p s).1 = .error .cipher ∨ ∃ q, (encrypt x key eid boots time p s).1 = .ok q) :
    ∃ lkey, x.localize key eid = some lkey ∧ p.length ≤ s.cfg.maxLen.val := by
  cases hkey : x.localize key eid with
  | none =>
    rw [encrypt_of_localize_none hkey] at h
    simp at h
  | some lkey =>
    refine ⟨lkey, rfl, Nat.le_of_not_lt fun hlong => ?_⟩
    rw [encrypt_fst_of_tooLong hkey hlong] at h
    simp at h

/-- What a successful call of `encrypt` says. -/
theorem exists_of_encrypt_eq_ok {p ct : List Byte} {salt : Bytes 8} {s t : State}
    (h : encrypt x key eid boots time p s = (.ok (ct, salt), t)) :
    ∃ lkey, x.localize key eid = some lkey ∧ salt = encryptSalt boots s ∧
      x.cbcEnc (ksplit lkey).1 (xor8 salt (ksplit lkey).2) (pad p 8) = some ct ∧
      t.salt = succ (succ s.salt) ∧ t.cfg = s.cfg := by
  obtain ⟨lkey, hkey, hlen⟩ := reachesCipher_of_encrypt (.inr ⟨_, congrArg Prod.fst h⟩)
  rw [encrypt_eq_of_legal hkey hlen, Prod.mk.injEq, cipherResult_eq_ok, Option.map_eq_some_iff] at h
  obtain ⟨⟨y, hy, hpair⟩, rfl⟩ := h
  obtain ⟨rfl, rfl⟩ := Prod.mk.inj hpair
  exact ⟨lkey, hkey, rfl, hy, rfl, rfl⟩

/-! ### `decrypt` -/

theorem decrypt_of_localize_none (h : x.localize key eid = none) (salt : Bytes 8) (ct : List Byte) (s : State) :
    decrypt x key eid boots time salt ct s = (.error .keyDerivation, s) := by
  simp only [decrypt, h]

theorem decrypt_of_localize_some {lkey : Bytes 16} (h : x.localize key eid = some lkey) (salt : Bytes 8)
    (ct : List Byte) (s : State) :
    decrypt x key eid boots time salt ct s = decryptWith x lkey boots time salt ct s := by
  simp only [decrypt, h]

/-- The host's transaction with a packet of `DECPREP`: a pure command. -/
theorem transact_decprep (lkey : Bytes 16) (boots time : Word) (salt : Bytes 8) (len : Word) (s : State) :
    transact (encode (.decprep lkey boots time salt len)) s =
      some ((answerOf s.cfg s.salt (.decprep lkey boots time salt len)).encode,
        { s with responses := s.responses ++
            [(answerOf s.cfg s.salt (.decprep lkey boots time salt len)).encode] }) := by
  rw [transact_encode (i := .decprep lkey boots time salt len) len.isLt, Safety.saltAfter_of_pure rfl]

/-- `decrypt` keeps the counter on every path: `DECPREP` is its only command. -/
theorem decryptWith_salt (x : Collaborators Key EngineId) (lkey : Bytes 16) (boots time : Word) (salt : Bytes 8)
    (ct : List Byte) (s : State) : (decryptWith x lkey boots time salt ct s).2.salt = s.salt := by
  simp only [decryptWith, transact_decprep]
  split
  · rfl
  · split
    · rfl
    · split <;> rfl

theorem decrypt_salt (x : Collaborators Key EngineId) (key : Key) (eid : EngineId) (boots time : Word) (salt : Bytes 8)
    (ct : List Byte) (s : State) : (decrypt x key eid boots time salt ct s).2.salt = s.salt := by
  cases hkey : x.localize key eid with
  | none => rw [decrypt_of_localize_none hkey]
  | some lkey => rw [decrypt_of_localize_some hkey, decryptWith_salt]

/-- The `len` operand of a ciphertext up to `MAX_LEN`. -/
theorem lenOfCiphertext_toNat {cfg : Config} {ct : List Byte} (h : ct.length ≤ cfg.maxLen.val) :
    ct.length < 2 ^ 32 ∧ (BitVec.ofNat 32 ct.length).toNat = ct.length := by
  have hmax := maxLen_le cfg
  have hlt : ct.length < 2 ^ 32 := by omega
  exact ⟨hlt, toNat_ofNat_of_lt hlt⟩

/-- With a misaligned ciphertext the block answers `FORMAT_ERROR`, and the host stops there. -/
theorem decryptWith_of_misaligned {ct : List Byte} {s : State} (hlen : ct.length ≤ s.cfg.maxLen.val)
    (h8 : ct.length % 8 ≠ 0) (x : Collaborators Key EngineId) (lkey : Bytes 16) (boots time : Word) (salt : Bytes 8) :
    decryptWith x lkey boots time salt ct s =
      (.error .format, { s with responses := s.responses ++ [(Response.failed .formatError).encode] }) := by
  obtain ⟨hlt, hval⟩ := lenOfCiphertext_toNat hlen
  have hanswer := answerOf_decprep_of_misaligned (hval.symm ▸ hlen) (hval.symm ▸ h8) s.salt lkey boots time salt
  have hread : readWith cutDecprep (Response.failed .formatError).encode = .error .format :=
    readWith_of_readStatus (readStatus_failed .formatError) _
  simp only [decryptWith, if_neg (Nat.not_le.2 hlt), transact_decprep, hanswer, hread]

/-- With an aligned ciphertext the call ends with the cipher call, under the key and IV that `DECPREP` answers. -/
theorem decryptWith_of_aligned {ct : List Byte} {s : State} (hlen : ct.length ≤ s.cfg.maxLen.val)
    (h8 : ct.length % 8 = 0) (x : Collaborators Key EngineId) (lkey : Bytes 16) (boots time : Word) (salt : Bytes 8) :
    (decryptWith x lkey boots time salt ct s).1 =
      cipherResult (x.cbcDec (ksplit lkey).1 (xor8 salt (ksplit lkey).2) ct) := by
  obtain ⟨hlt, hval⟩ := lenOfCiphertext_toNat hlen
  have hanswer := answerOf_decprep_of_aligned (hval.symm ▸ hlen) (hval.symm ▸ h8) s.salt lkey boots time salt
  simp only [decryptWith, if_neg (Nat.not_le.2 hlt), transact_decprep, hanswer, readWith_decPrepared]
  cases x.cbcDec (ksplit lkey).1 (xor8 salt (ksplit lkey).2) ct <;> rfl

/-! ### The obligations about the composition (R86 to R88) -/

/-- Settles O46: after localisation the call is that of `decryptWith_of_misaligned`, which names no cipher. -/
theorem misalignedDecryptNeverCallsCipher : Obligations.MisalignedDecryptNeverCallsCipher := by
  unfold Obligations.MisalignedDecryptNeverCallsCipher
  intro Key EngineId x key eid boots time ct salt s hlocalize h8 hlen
  obtain ⟨lkey, hkey⟩ := Option.ne_none_iff_exists'.1 hlocalize
  have hmisaligned := decryptWith_of_misaligned hlen h8 (Key := Key) (EngineId := EngineId)
  refine ⟨?_, fun dec => ?_⟩
  · rw [decrypt_of_localize_some hkey, hmisaligned]
  · rw [decrypt_of_localize_some hkey, decrypt_of_localize_some (x := { x with cbcDec := dec }) hkey, hmisaligned,
      hmisaligned]

/-- Settles O47: a misaligned ciphertext fails alike in both orders; for an aligned one they are the same call. -/
theorem decryptCheckOrdersAgree : Obligations.DecryptCheckOrdersAgree := by
  unfold Obligations.DecryptCheckOrdersAgree
  intro Key EngineId x key eid boots time ct salt s hlocalize hlen
  rw [decryptCheckFirst]
  split
  case isTrue h8 =>
    have hformat := (misalignedDecryptNeverCallsCipher Key EngineId x key eid boots time ct salt s hlocalize h8 hlen).1
    exact ⟨hformat.symm, (decrypt_salt x key eid boots time salt ct s).symm⟩
  case isFalse => exact ⟨rfl, rfl⟩

/-- Settles O45: `encrypt` reports a cipher failure only after its `ENCPREP`; `decrypt_salt` is the rest. -/
theorem collaboratorFailuresAndSalt : Obligations.CollaboratorFailuresAndSalt := by
  unfold Obligations.CollaboratorFailuresAndSalt
  intro Key EngineId x key eid boots time p salt s
  refine ⟨fun hkey => ⟨encrypt_of_localize_none hkey p s, decrypt_of_localize_none hkey salt p s⟩, fun hcipher => ?_,
    decrypt_salt x key eid boots time salt p s⟩
  obtain ⟨lkey, hkey, hlen⟩ := reachesCipher_of_encrypt (.inl hcipher)
  rw [encrypt_eq_of_legal hkey hlen]
  exact succ_succ_val s.salt

/-- Settles O43: the receiver's cipher call has the sender's key and IV, and its input has the aligned length of the
padded plaintext, so that CBC-INV applies. -/
theorem encryptDecryptRoundTrip : Obligations.EncryptDecryptRoundTrip := by
  unfold Obligations.EncryptDecryptRoundTrip
  intro Key EngineId x key eid boots boots' time time' p ct salt s t s' hcbcLen hcbcInv hencrypt hlen hne
  obtain ⟨lkey, hkey, -, henc, -, -⟩ := exists_of_encrypt_eq_ok hencrypt
  have hpad : (pad p 8).length % 8 = 0 := pad_length_mod p (by decide)
  have hct : ct.length % 8 = 0 := by rw [(hcbcLen _ _ _ _ hpad).1 henc, hpad]
  have hdecrypt := decryptWith_of_aligned hlen hct x lkey boots' time' salt
  rw [← decrypt_of_localize_some hkey] at hdecrypt
  rw [hdecrypt] at hne
  obtain ⟨z, hdec⟩ := exists_of_cipherResult_ne hne
  obtain rfl : z = pad p 8 := hcbcInv _ _ _ _ _ hpad henc hdec
  rw [hdec] at hdecrypt
  exact ⟨hdecrypt, fun h8 => hdecrypt.trans (congrArg Except.ok (pad_of_aligned h8)),
    decrypt_salt x key eid boots' time' salt ct s'⟩

/-- The salt of a call is the salt of number 0 of a run of `ENCPREP`; after a call it is that of number 1. -/
theorem encryptSalt_ne_of_next {s t : State} (hcfg : t.cfg = s.cfg) (hsalt : t.salt = succ (succ s.salt))
    (boots : Word) : encryptSalt boots s ≠ encryptSalt boots t := by
  have hfirst : encryptSalt boots s = Safety.usedSalt s.cfg.fieldMask boots s.salt 0 := by
    rw [Safety.usedSalt, Nat.mul_zero, ← Safety.counter_val_eq_mod]
    rfl
  have hsecond : encryptSalt boots t = Safety.usedSalt s.cfg.fieldMask boots s.salt 1 := by
    rw [Safety.usedSalt, encryptSalt, counterWord, hcfg, hsalt, succ_succ_val]
  rw [hfirst, hsecond]
  exact Safety.usedSalt_succ_ne s.cfg.fieldMask boots s.salt 0

/-- A payload that is not empty is padded to at least one block. -/
theorem blockSize_le_pad_length {p : List Byte} (h : p ≠ []) : blockSize ≤ (pad p blockSize).length := by
  have hpos := List.length_pos_iff.2 h
  rw [pad_length p blockSize (by decide)]
  simp only [blockSize]
  omega

/-- Settles O44: the second call frames its salt two draws on, and different salts give different IVs; the empty payload
stays empty under padding. -/
theorem consecutiveEncryptionsDiffer : Obligations.ConsecutiveEncryptionsDiffer := by
  unfold Obligations.ConsecutiveEncryptionsDiffer
  intro Key EngineId x key eid boots time time' p ct ct' salt salt' s t t' u hfirst ht'salt ht'cfg hsecond
  obtain ⟨lkey, hkey, rfl, henc, htsalt, htcfg⟩ := exists_of_encrypt_eq_ok hfirst
  obtain ⟨lkey', hkey', rfl, henc', -, -⟩ := exists_of_encrypt_eq_ok hsecond
  obtain rfl : lkey = lkey' := Option.some.inj (hkey.symm.trans hkey')
  have hsalt := encryptSalt_ne_of_next (ht'cfg.trans htcfg) (ht'salt.trans htsalt) boots
  have hpad : (pad p 8).length % 8 = 0 := pad_length_mod p (by decide)
  refine ⟨hsalt, fun hsens hp => ?ciphertexts, fun hcbcLen hp => ?empty⟩
  case ciphertexts =>
    exact hsens _ _ _ _ _ _ hpad (blockSize_le_pad_length hp) ((xor8_left_injective _).ne hsalt) henc henc'
  case empty =>
    subst hp
    exact ⟨List.eq_nil_of_length_eq_zero ((hcbcLen _ _ _ _ hpad).1 henc),
      List.eq_nil_of_length_eq_zero ((hcbcLen _ _ _ _ hpad).1 henc')⟩

end Sys2Proof.Machine
end

section
/-! PROOFS, spec/60_exceptions.md: the errors of a packet and what they leave unchanged, and the values that the draws
of any merged order of commands return. -/

namespace Sys2Proof.Safety

open Sys2Proof.Machine

/-! ### The three outcomes of a packet (R90 to R92, R96) -/

/-- The format check is that of `DECPREP` and of no other command. -/
theorem formatViolated_iff {i : Instr} : formatViolated i = true ↔
    ∃ (lkey : Bytes 16) (boots time : Word) (salt : Bytes 8) (len : Word),
      i = .decprep lkey boots time salt len ∧ len.toNat % 8 ≠ 0 := by
  constructor
  case mp =>
    intro h
    cases i with
    | decprep lkey boots time salt len => exact ⟨lkey, boots, time, salt, len, rfl, formatViolated_decprep_iff.1 h⟩
    | pad | next | ksplit | frame | ivxor | encprep => cases h
  case mpr =>
    rintro ⟨lkey, boots, time, salt, len, rfl, h8⟩
    exact formatViolated_decprep_iff.2 h8

/-- A successful response begins with `OK`. -/
theorem head?_okAnswer (cfg : Config) (c : Counter) (i : Instr) : (okAnswer cfg c i).encode.head? = some 0x00 := by
  cases i with
  | pad | next | ksplit | frame | ivxor | encprep | decprep => rfl

/-- A packet is a command that succeeds, a misaligned `DECPREP`, or no well-formed command; the last two are answered
with one byte and leave the counter as it is. -/
theorem packet_cases (cfg : Config) (c : Counter) (p : Packet) :
    (∃ i, decodeCommand cfg p = .ok i ∧ formatViolated i = false ∧
      packetAnswer cfg c p = (okAnswer cfg c i).encode) ∨
    (∃ i, decodeCommand cfg p = .ok i ∧ formatViolated i = true ∧
      packetAnswer cfg c p = [0x01] ∧ packetSalt cfg c p = c) ∨
    ((∀ i, decodeCommand cfg p ≠ .ok i) ∧ packetAnswer cfg c p = [0x02] ∧ packetSalt cfg c p = c) := by
  cases hd : decode p with
  | error e =>
    refine .inr (.inr ⟨fun i hi => ?_, by simp only [packetAnswer, hd, ErrorKind.code], by simp only [packetSalt, hd]⟩)
    cases hd.symm.trans (decodeCommand_eq_ok.1 hi).1
  | ok i =>
    simp only [packetAnswer, packetSalt, hd, answerOf, saltAfter]
    rcases errorOf_cases cfg i with ⟨hwf, he⟩ | ⟨hwf, hf, he⟩ | ⟨hwf, hf, he⟩
    · refine .inr (.inr ⟨fun j hj => ?_, by simp only [he, Response.encode, ErrorKind.code], by simp only [he]⟩)
      obtain ⟨hj, hwfj⟩ := decodeCommand_eq_ok.1 hj
      obtain rfl : i = j := Except.ok.inj (hd.symm.trans hj)
      simp [hwf] at hwfj
    · exact .inr (.inl ⟨i, decodeCommand_eq_ok.2 ⟨hd, hwf⟩, hf, by simp only [he, Response.encode, ErrorKind.code],
        by simp only [he]⟩)
    · exact .inl ⟨i, decodeCommand_eq_ok.2 ⟨hd, hwf⟩, hf, by simp only [he]⟩

/-- An answer that does not begin with `OK` is one error byte, and its packet leaves the counter as it is. -/
theorem packetAnswer_of_not_ok {cfg : Config} {c : Counter} {p : Packet}
    (h : (packetAnswer cfg c p).head? ≠ some 0x00) :
    (packetAnswer cfg c p = [0x01] ∨ packetAnswer cfg c p = [0x02]) ∧ packetSalt cfg c p = c := by
  rcases packet_cases cfg c p with ⟨i, -, -, ha⟩ | ⟨i, -, -, ha, hs⟩ | ⟨-, ha, hs⟩
  · exact absurd (ha ▸ head?_okAnswer cfg c i) h
  · exact ⟨.inl ha, hs⟩
  · exact ⟨.inr ha, hs⟩

/-- The status `FORMAT_ERROR` is that of a well-formed `DECPREP` that fails the format check. -/
theorem head?_packetAnswer_eq_formatError {cfg : Config} {c : Counter} {p : Packet} :
    (packetAnswer cfg c p).head? = some 0x01 ↔ ∃ i, decodeCommand cfg p = .ok i ∧ formatViolated i = true := by
  rcases packet_cases cfg c p with ⟨i, hi, hf, ha⟩ | ⟨i, hi, hf, ha, -⟩ | ⟨hno, ha, -⟩
  · have hok : (packetAnswer cfg c p).head? = some 0x00 := ha ▸ head?_okAnswer cfg c i
    simp [hok, hi, hf]
  · simp [ha, hi, hf]
  · simp [ha, hno]

/-- The state and the response of a step, read off its one outcome. -/
theorem of_step_eq_next {s t : State} {p : Packet} {rest : List Packet} {r : Packet} (hport : s.port = p :: rest)
    (hstep : step s = .next t) (hr : t.responses = s.responses ++ [r]) :
    r = packetAnswer s.cfg s.salt p ∧
      t = { s with port := rest, salt := packetSalt s.cfg s.salt p, responses := s.responses ++ [r] } := by
  rw [step_eq hport] at hstep
  cases hstep
  obtain rfl : packetAnswer s.cfg s.salt p = r := List.singleton_inj.1 (List.append_cancel_left hr)
  exact ⟨rfl, rfl⟩

/-- Settles O19: the response is that of `packetAnswer`, whose status `head?_packetAnswer_eq_formatError` and, for a
`DECPREP`, `packet_cases` give. -/
theorem formatErrorCause : Obligations.FormatErrorCause := by
  unfold Obligations.FormatErrorCause
  intro s t p rest r hport hstep hr
  obtain ⟨rfl, -⟩ := of_step_eq_next hport hstep hr
  refine ⟨?cause, fun h => ?oneByte, fun lkey boots time salt len hdec => ?decprep⟩
  case cause =>
    rw [head?_packetAnswer_eq_formatError]
    constructor
    · rintro ⟨i, hi, hf⟩
      obtain ⟨lkey, boots, time, salt, len, rfl, h8⟩ := formatViolated_iff.1 hf
      exact ⟨lkey, boots, time, salt, len, hi, h8⟩
    · rintro ⟨lkey, boots, time, salt, len, hi, h8⟩
      exact ⟨_, hi, formatViolated_decprep_iff.2 h8⟩
  case oneByte =>
    have hne : (packetAnswer s.cfg s.salt p).head? ≠ some 0x00 := by simp [h]
    rcases (packetAnswer_of_not_ok hne).1 with ha | ha
    · exact ha
    · simp [ha] at h
  case decprep =>
    rcases packet_cases s.cfg s.salt p with ⟨i, hi, hf, ha⟩ | ⟨i, hi, hf, ha, -⟩ | ⟨hno, -⟩
    · cases hi.symm.trans hdec
      have h8 : len.toNat % 8 = 0 := by
        by_contra h8
        simp [formatViolated_decprep_iff.2 h8] at hf
      rw [ha, if_pos h8, head?_okAnswer]
    · cases hi.symm.trans hdec
      rw [ha, if_neg (formatViolated_decprep_iff.1 hf), List.head?_cons]
    · exact absurd hdec (hno _)

/-! ### An error has no effect but its response (R97, R98) -/

/-- Settles O20: by `packetAnswer_of_not_ok` the counter, the one part of the state at stake, stays. -/
theorem errorsHaveNoEffect : Obligations.ErrorsHaveNoEffect := by
  unfold Obligations.ErrorsHaveNoEffect
  intro s t p rest r hport hstep hr hne
  obtain ⟨rfl, rfl⟩ := of_step_eq_next hport hstep hr
  obtain ⟨hbyte, hsalt⟩ := packetAnswer_of_not_ok hne
  exact ⟨hbyte, by rw [hsalt]⟩

/-- Settles O21: both runs take the same packets from the same counter, by `after_eq`. -/
theorem failedPacketLeavesNoTrace : Obligations.FailedPacketLeavesNoTrace := by
  unfold Obligations.FailedPacketLeavesNoTrace
  intro s p rest r n hport hanswers hne
  have hr : packetAnswer s.cfg s.salt p = r := by
    rw [answers_eq, hport] at hanswers
    exact List.singleton_inj.1 (Option.some.inj hanswers)
  subst hr
  obtain ⟨-, hsalt⟩ := packetAnswer_of_not_ok hne
  refine ⟨_, _, after_eq (n + 1) s, after_eq n _, ?salt, rfl, ?port, answersFrom s.cfg s.salt (rest.take n), rfl,
    ?responses⟩
  case salt => simp only [hport, List.take_succ_cons, saltFrom, List.foldl_cons, hsalt]
  case port => simp only [hport, List.drop_succ_cons]
  case responses => simp only [hport, List.take_succ_cons, answersFrom, hsalt]

/-! ### The draws of a run (R102, R103) -/

/-- The draws of the packets before a place and those of the packet there are among the draws up to any later place. -/
theorem totalDraws_take_add_le (cfg : Config) {ps : List Packet} {p : Packet} {k n : Nat} (hk : ps[k]? = some p)
    (hkn : k < n) : totalDraws cfg (ps.take k) + drawsOf cfg p ≤ totalDraws cfg (ps.take n) := by
  have hnext : totalDraws cfg (ps.take (k + 1)) = totalDraws cfg (ps.take k) + drawsOf cfg p := by
    simp [totalDraws, List.take_add_one, hk]
  have hprefix : (ps.take (k + 1)).map (drawsOf cfg) <+: (ps.take n).map (drawsOf cfg) :=
    (List.take_prefix_take_left hkn).map _
  exact hnext ▸ hprefix.sublist.sum_le_sum fun _ _ => Nat.zero_le _

/-- The counter after some packets is the value of the next draw. -/
theorem saltFrom_eq_drawSeq (s : State) (ps : List Packet) :
    saltFrom s.cfg s.salt ps = drawSeq s (totalDraws s.cfg ps) :=
  Fin.ext ((saltFrom_val _ _ _).trans (drawSeq_val _ _).symm)

/-- The sequence of draws goes on behind a packet where the packet's draws left it. -/
theorem drawSeq_after_packet {s t : State} {p : Packet} (h : t.salt = packetSalt s.cfg s.salt p) (k : Nat) :
    drawSeq t k = drawSeq s (drawsOf s.cfg p + k) :=
  Fin.ext (by rw [drawSeq_val, drawSeq_val, h, packetSalt_val, Nat.mod_add_mod, Nat.add_assoc])

/-- Steps with an empty port draw nothing. -/
theorem drawnValues_of_port_nil (n : Nat) {s : State} (h : s.port = []) : drawnValues n s = [] := by
  induction n with
  | zero => rfl
  | succ n ih => simp only [drawnValues, drawnBy, h, emptyPortStepIdles s h, ih, List.append_nil]

/-- A run draws the sequence from its beginning on, without a gap, as far as its packets draw. -/
theorem drawnValues_eq (n : Nat) (s : State) :
    drawnValues n s = (List.range (totalDraws s.cfg (s.port.take n))).map (drawSeq s) := by
  induction n generalizing s with
  | zero => rfl
  | succ n ih =>
    cases hport : s.port with
    | nil => rw [drawnValues_of_port_nil _ hport]; rfl
    | cons p rest =>
      have htotal : totalDraws s.cfg (p :: rest.take n) = drawsOf s.cfg p + totalDraws s.cfg (rest.take n) := by
        rw [totalDraws, totalDraws, List.map_cons, List.sum_cons]
      rw [drawnValues_succ n hport, ih, List.take_succ_cons, htotal, List.range_add, List.map_append, List.map_map]
      exact congrArg _ (List.map_congr_left fun k _ => drawSeq_after_packet rfl k)

/-- A packet in a run is answered at the counter value that the next draw returns. -/
theorem getElem?_answersFrom_eq (s : State) {ps : List Packet} {p : Packet} {k : Nat} (hk : ps[k]? = some p) :
    (answersFrom s.cfg s.salt ps)[k]? =
      some (packetAnswer s.cfg (drawSeq s (totalDraws s.cfg (ps.take k))) p) := by
  rw [getElem?_answersFrom, hk, Option.map_some, saltFrom_eq_drawSeq]

/-- The value at the place of a packet's first draw. -/
theorem getElem?_drawnValues (s : State) {p : Packet} {k : Nat} (hk : s.port[k]? = some p)
    (hdraws : 0 < drawsOf s.cfg p) :
    (drawnValues s.port.length s)[totalDraws s.cfg (s.port.take k)]? =
      some (drawSeq s (totalDraws s.cfg (s.port.take k))) := by
  have hle := totalDraws_take_add_le s.cfg hk (List.getElem?_eq_some_iff.1 hk).1
  rw [drawnValues_eq, List.getElem?_map, List.getElem?_range (by omega), Option.map_some]

/-- The responses of a run that takes every packet of the port. -/
theorem answers_length_port (s : State) :
    answers s.port.length s = some (answersFrom s.cfg s.salt s.port) := by
  rw [answers_eq, List.take_length]

/-- Settles O27: `NEXT` answers the value of its draw, whose closed form is `drawSeq_val`. -/
theorem drawnValueInMergedOrder : Obligations.DrawnValueInMergedOrder := by
  unfold Obligations.DrawnValueInMergedOrder
  rintro _ s k rfl hk
  refine ⟨_, answers_length_port s, ?_⟩
  rw [getElem?_answersFrom_eq s hk, ← drawSeq_val]
  rfl

/-- Settles O28: the run draws a stretch of the sequence by `drawnValues_eq`, and within a period the sequence repeats
no value by `drawSeq_injOn_period`. -/
theorem noValueDrawnTwiceInAPeriod : Obligations.NoValueDrawnTwiceInAPeriod := by
  unfold Obligations.NoValueDrawnTwiceInAPeriod
  rintro _ s rfl
  refine ⟨_, answers_length_port s, ?length, fun hperiod => ?nodup, fun k hk => ?next, fun k o hk hlen => ?encprep,
    fun j k hjk hj hk hperiod => ?different⟩
  case length => rw [drawnValues_eq, List.take_length, List.length_map, List.length_range]
  case nodup =>
    rw [drawnValues_eq, List.take_length]
    refine List.nodup_range.map_on fun a ha b hb hab => ?_
    rw [List.mem_range] at ha hb
    exact drawSeq_injOn_period s (j := 0) (by omega) (by omega) hab
  case next => exact ⟨_, getElem?_drawnValues s hk Nat.one_pos, getElem?_answersFrom_eq s hk⟩
  case encprep =>
    refine ⟨_, getElem?_drawnValues s hk (by rw [drawsOf_encprep o hlen]; decide), ?_⟩
    rw [getElem?_answersFrom_eq s hk, Option.map_some, saltField_packetAnswer o hlen, counterWord]
  case different =>
    refine ⟨_, _, getElem?_answersFrom_eq s hj, getElem?_answersFrom_eq s hk, fun heq => ?_⟩
    have hone : drawsOf s.cfg [0x02] = 1 := rfl
    have hbefore := totalDraws_take_add_le s.cfg hj hjk
    have hwithin := totalDraws_take_add_le s.cfg hk (List.getElem?_eq_some_iff.1 hk).1
    rw [List.take_length] at hwithin
    have hplace := drawSeq_injOn_period s (j := 0) (by omega) (by omega) (packetAnswer_next_injective s.cfg heq)
    omega

end Sys2Proof.Safety
end

section
/-! PROOFS, spec/70_reset_and_hazards.md: the reset state and its first draw, and what the mask can affect. -/

namespace Sys2Proof.Machine

/-! ### The parameter `FIELD_MASK` (R115) -/

/-- The status of a command does not depend on the mask: an illegal operand is judged by `MAX_LEN` alone. -/
theorem errorOf_withMask (cfg : Config) (m : FieldMask) (i : Instr) :
    errorOf { cfg with fieldMask := m } i = errorOf cfg i := by
  cases i with
  | pad | next | ksplit | frame | ivxor | encprep | decprep => rfl

/-- The counter after a command does not depend on the mask, whichever command it is. -/
theorem saltAfter_withMask (cfg : Config) (m : FieldMask) (c : Counter) (i : Instr) :
    saltAfter { cfg with fieldMask := m } c i = saltAfter cfg c i := by
  rw [saltAfter, saltAfter, errorOf_withMask]

/-- The successful response of a command that frames no salt does not depend on the parameters. -/
theorem okAnswer_of_not_framing {i : Instr} (hframe : i.opcode ≠ 0x04) (hencprep : i.opcode ≠ 0x06)
    (cfg cfg' : Config) (c : Counter) : okAnswer cfg c i = okAnswer cfg' c i := by
  cases i with
  | frame => exact absurd rfl hframe
  | encprep => exact absurd rfl hencprep
  | pad | next | ksplit | ivxor | decprep => rfl

/-- The response of a command that frames no salt does not depend on the mask, whether the command fails or not. -/
theorem answerOf_withMask {i : Instr} (hframe : i.opcode ≠ 0x04) (hencprep : i.opcode ≠ 0x06) (cfg : Config)
    (m : FieldMask) (c : Counter) : answerOf { cfg with fieldMask := m } c i = answerOf cfg c i := by
  rw [answerOf, answerOf, errorOf_withMask, okAnswer_of_not_framing hframe hencprep _ cfg]

end Sys2Proof.Machine

namespace Sys2Proof.Safety

open Sys2Proof.Machine

/-- Settles O40: both outcomes are those of `exec_eq`, whose response and counter ignore the mask. -/
theorem maskOnlyAffectsFraming : Obligations.MaskOnlyAffectsFraming := by
  unfold Obligations.MaskOnlyAffectsFraming
  intro i s m hframe hencprep
  refine ⟨saltAfter s.cfg s.salt i, (answerOf s.cfg s.salt i).encode, exec_eq i s, ?_⟩
  rw [exec_eq, saltAfter_withMask, answerOf_withMask hframe hencprep]

/-! ### Reset (R105, R108) -/

/-- No response is given at reset. -/
theorem responsesFormed_resetWith (cfg : Config) (seed : Seed) : ResponsesFormed (State.resetWith cfg seed) := by
  rw [ResponsesFormed, resetWith_responses]
  exact List.forall_mem_nil _

/-- Settles O11: the plain reset state is a reset with one seed and one choice of the parameters. -/
theorem resetResponsesFormed : Obligations.ResetResponsesFormed := by
  unfold Obligations.ResetResponsesFormed
  exact ⟨responsesFormed_resetWith, responsesFormed_resetWith _ _⟩

/-- The first packet after reset is answered at the counter value that reset loads. -/
theorem answers_one_resetWith (cfg : Config) (seed : Seed) (p : Packet) :
    answers 1 ((State.resetWith cfg seed).present [p]) =
      some [packetAnswer cfg (State.resetWith cfg seed).salt p] :=
  answers_eq 1 _

/-- Settles O42: the fields are those of `State.resetWith`, and `NEXT` answers the counter, which is the seed. -/
theorem resetLoadsSeed : Obligations.ResetLoadsSeed := by
  unfold Obligations.ResetLoadsSeed
  intro cfg seed
  obtain ⟨hmin, hmax⟩ := seed.2
  refine ⟨resetWith_salt_val cfg seed, hmin, hmax, resetWith_port cfg seed, resetWith_responses cfg seed,
    resetWith_cfg cfg seed, ?firstDraw⟩
  case firstDraw =>
    have hnext (c : Counter) : packetAnswer cfg c [0x02] = 0x00 :: be32 (BitVec.ofNat 32 c.val) :=
      packetAnswer_next cfg c
    rw [answers_one_resetWith, hnext, resetWith_salt_val]

end Sys2Proof.Safety
end
